-- ==== Sys2Proof/Word.lean ====
section
/-! DEFINITION. The machine's words: the 8-bit byte of registers and cells, the 9-bit word of the program counter, the register number. -/

namespace Sys2Proof

/-- An 8-bit value: a register, a memory cell, an opcode or operand byte (R10, R30, R50). -/
abbrev Byte := BitVec 8

/-- The 9-bit word of the program counter and of a fault's `info` (R14, R17). -/
abbrev Word9 := BitVec 9

/-- A register number 0..7 (R10). -/
abbrev RegIdx := Fin 8

end Sys2Proof
end

