-- ==== Sys2Proof/Config.lean ====
section
/-! DEFINITION. The machine's fixed sizes (R5) and the type of its nine opcode parameters (R54). -/

namespace Sys2Proof

/-- `MEM_CELLS`: addresses are 0..255 (R5, R30). -/
def Config.memCells : Nat := 256

/-- `SP_INDEX`: register 7 is the stack pointer (R5, R12). -/
def Config.spIndex : RegIdx := 7

/-- `SP_RESET` (R5, R20). -/
def Config.spReset : Byte := 0xF4#8

/-- `PC_RESET`, which is also the address the image is loaded at, `LOAD_BASE` (R5, R20, R152). -/
def Config.pcReset : Word9 := 0#9

/-- The names of the nine opcodes, in the table's order (R2, R55). -/
inductive Opcode where
  | halt | loadImmediate | printRegister | add | multiply | push | pop | call | ret
deriving DecidableEq, Repr

/-- The Operands column of the opcode table: how many operand bytes follow (R54). -/
def Opcode.operands : Opcode → Nat
  | .halt => 0
  | .loadImmediate => 2
  | .printRegister => 1
  | .add => 2
  | .multiply => 2
  | .push => 1
  | .pop => 1
  | .call => 1
  | .ret => 0

/-- The nine opcode parameters `OPC_*` (R5, R54). -/
structure OpcodeMap where
  halt : Byte
  loadImmediate : Byte
  printRegister : Byte
  add : Byte
  multiply : Byte
  push : Byte
  pop : Byte
  call : Byte
  ret : Byte
deriving DecidableEq, Repr

/-- The value a parameter assignment gives an opcode. -/
def OpcodeMap.value (m : OpcodeMap) : Opcode → Byte
  | .halt => m.halt
  | .loadImmediate => m.loadImmediate
  | .printRegister => m.printRegister
  | .add => m.add
  | .multiply => m.multiply
  | .push => m.push
  | .pop => m.pop
  | .call => m.call
  | .ret => m.ret

/-- The constraint the source puts on the nine values (R54): they are pairwise distinct, and bits [7:6] of each
are its operand count. -/
def OpcodeMap.Admissible (m : OpcodeMap) : Prop :=
  (∀ o o' : Opcode, m.value o = m.value o' → o = o') ∧
    ∀ o : Opcode, ((m.value o).extractLsb 7 6).toNat = o.operands

end Sys2Proof
end

