-- ==== Sys2Proof/Syntax.lean ====
section
/-! DEFINITION. The instructions: one constructor per row of the opcode table. Operands are whole bytes, as R52 has them. -/

namespace Sys2Proof

/-- The nine instructions (R2, R52). A register operand is the operand byte as fetched, so that the check of R13 is
the machine's; the immediate is the whole byte. -/
inductive Instr where
  /-- HALT (R90). -/
  | halt
  /-- LOAD_IMMEDIATE `a, imm` (R91): destination register, 8-bit immediate. -/
  | loadImmediate (a imm : Byte)
  /-- PRINT_REGISTER `a` (R92): source register. -/
  | printRegister (a : Byte)
  /-- ADD `a, b` (R101): destination and first source, second source. -/
  | add (a b : Byte)
  /-- MULTIPLY `a, b` (R102): destination and first source, second source. -/
  | multiply (a b : Byte)
  /-- PUSH `a` (R110): source register. -/
  | push (a : Byte)
  /-- POP `a` (R111): destination register. -/
  | pop (a : Byte)
  /-- CALL `a` (R120): register holding the target address. -/
  | call (a : Byte)
  /-- RET (R121). -/
  | ret
deriving DecidableEq, Repr

end Sys2Proof
end

