-- ==== Sys2Proof/WellFormed.lean ====
section
/-! DEFINITION. Which instructions are well formed: every register operand names one of the eight registers (R13). -/

namespace Sys2Proof

/-- An operand byte names a register when it is in 0..7; all eight bits count (R13). -/
def isRegByte (b : Byte) : Bool := decide (b.toNat ≤ 7)

/-- Every register operand is in 0..7 (R13, R52); an immediate is never checked (R57). -/
def Instr.wellFormed : Instr → Bool
  | .halt => true
  | .loadImmediate a _ => isRegByte a
  | .printRegister a => isRegByte a
  | .add a b => isRegByte a && isRegByte b
  | .multiply a b => isRegByte a && isRegByte b
  | .push a => isRegByte a
  | .pop a => isRegByte a
  | .call a => isRegByte a
  | .ret => true

end Sys2Proof
end

