-- ==== Sys2Proof/Decode.lean ====
section
/-! DEFINITION. The decoder, total on any bytes and rejecting by name, and the encoder; both over the opcode parameters of R54. -/

namespace Sys2Proof

/-- The opcode values of R55. PRESUMED (log entry 1): the spec takes them from the LS-8 teaching ISA, its source gives
none; they are the defaults of the nine parameters. -/
def opcodes : OpcodeMap where
  halt := 0x01#8
  loadImmediate := 0x82#8
  printRegister := 0x47#8
  add := 0xA0#8
  multiply := 0xA2#8
  push := 0x45#8
  pop := 0x46#8
  call := 0x50#8
  ret := 0x11#8

/-- Bits [7:6] of an opcode byte, the operand count field (R51). -/
def operandCount (op : Byte) : Nat := (op.extractLsb 7 6).toNat

/-- The dispatcher's exact comparison of the byte with the nine values (R53, R75); `none`: an illegal opcode (R56). -/
def classify (m : OpcodeMap) (op : Byte) : Option Opcode :=
  if op = m.halt then some .halt
  else if op = m.loadImmediate then some .loadImmediate
  else if op = m.printRegister then some .printRegister
  else if op = m.add then some .add
  else if op = m.multiply then some .multiply
  else if op = m.push then some .push
  else if op = m.pop then some .pop
  else if op = m.call then some .call
  else if op = m.ret then some .ret
  else none

/-- Why a list of bytes is no instruction. -/
inductive DecodeError where
  /-- The first byte is none of the nine opcode values (R56). -/
  | illegal (op : Byte)
  /-- The instruction's byte number `missing` (0: the opcode) is not among the bytes given. -/
  | truncated (missing : Nat)
deriving DecidableEq, Repr

/-- One operand byte after the opcode, format F1 (R50). -/
def oneOperand (mk : Byte → Instr) : List Byte → Except DecodeError (Instr × List Byte)
  | [] => .error (.truncated 1)
  | a :: rest => .ok (mk a, rest)

/-- Two operand bytes after the opcode, format F2 (R50); `a` is looked for before `b` (R73). -/
def twoOperands (mk : Byte → Byte → Instr) : List Byte → Except DecodeError (Instr × List Byte)
  | [] => .error (.truncated 1)
  | [_] => .error (.truncated 2)
  | a :: b :: rest => .ok (mk a b, rest)

/-- The operand bytes an opcode takes, and the instruction they make (R50, R52). -/
def operandsOf : Opcode → List Byte → Except DecodeError (Instr × List Byte)
  | .halt, rest => .ok (.halt, rest)
  | .loadImmediate, rest => twoOperands .loadImmediate rest
  | .printRegister, rest => oneOperand .printRegister rest
  | .add, rest => twoOperands .add rest
  | .multiply, rest => twoOperands .multiply rest
  | .push, rest => oneOperand .push rest
  | .pop, rest => oneOperand .pop rest
  | .call, rest => oneOperand .call rest
  | .ret, rest => .ok (.ret, rest)

/-- Decoding under an assignment of the opcode parameters: the opcode alone selects the instruction (R53), an illegal
one needs no operand (R73), and the bytes after the instruction are handed back. -/
def decodeWith (m : OpcodeMap) : List Byte → Except DecodeError (Instr × List Byte)
  | [] => .error (.truncated 0)
  | op :: rest =>
    match classify m op with
    | none => .error (.illegal op)
    | some o => operandsOf o rest

/-- The machine's decoder: `decodeWith` at the values of R55. -/
def decode (bytes : List Byte) : Except DecodeError (Instr × List Byte) := decodeWith opcodes bytes

/-- The bytes of an instruction at ascending addresses (R50, R63). -/
def encodeWith (m : OpcodeMap) : Instr → List Byte
  | .halt => [m.halt]
  | .loadImmediate a imm => [m.loadImmediate, a, imm]
  | .printRegister a => [m.printRegister, a]
  | .add a b => [m.add, a, b]
  | .multiply a b => [m.multiply, a, b]
  | .push a => [m.push, a]
  | .pop a => [m.pop, a]
  | .call a => [m.call, a]
  | .ret => [m.ret]

/-- The machine's encoder: `encodeWith` at the values of R55. -/
def encode (i : Instr) : List Byte := encodeWith opcodes i

/-- Byte number `k` of a table word: bits 8k+7..8k of `w`, zero from bit `nbits` on. -/
def tableByte (nbits w k : Nat) : Byte := BitVec.ofNat 8 ((w % 2 ^ nbits) >>> (8 * k))

/-- A table word laid out as the machine stores it: three bytes, the longest instruction, the first at the lowest
address (R35, R58). -/
def tableBytes (nbits w : Nat) : List Byte := [tableByte nbits w 0, tableByte nbits w 1, tableByte nbits w 2]

/-- The instruction the decoder reads from a table word. -/
def decodeTableWord (nbits w : Nat) : Option Instr :=
  match decode (tableBytes nbits w) with
  | .ok (i, _) => some i
  | .error _ => none

end Sys2Proof
end

