-- ==== Sys2Proof/Machine/State.lean ====
section
/-! DEFINITION. The whole state of the machine (R24), the reasons a step can stop, and the state after reset (R20). -/

namespace Sys2Proof.Machine

/-- The 256 cells as plain data: the cells that do not hold zero, addresses strictly rising (R30, R152). -/
abbrev Memory := List Host.Cell

/-- The canonical form from address `lo` on: addresses rising and below 256, no cell listed that holds zero. -/
def Memory.wfFrom (lo : Nat) : Memory → Bool
  | [] => true
  | (a, v) :: rest =>
    decide (lo ≤ a) && decide (a < Config.memCells) && decide (v ≠ 0#8) && Memory.wfFrom (a + 1) rest

/-- The canonical form of memory. -/
def Memory.wf (m : Memory) : Bool := Memory.wfFrom 0 m

/-- The causes of a fault (R131). -/
inductive FaultCause where
  /-- The byte at `pc` is no opcode (R56); raised by fetch. -/
  | illegalInstruction
  /-- An address above 255 would be used (R32, R72, R73) or pushed by CALL (R120). -/
  | outOfRangeAddress
  /-- An operand byte used as a register number is above 7 (R13). -/
  | outOfRangeRegister
  /-- The ALU is handed a select that is no operation (R105); no program reaches it. -/
  | unsupportedALUOperation
deriving DecidableEq, Repr

/-- What `fault` records: cause and `info` (R17, R131). -/
structure FaultRecord where
  cause : FaultCause
  info : Word9
deriving DecidableEq, Repr

/-- The whole state of the machine (R24). -/
structure State where
  /-- The register file `x[0]`..`x[7]`; `x[7]` is the stack pointer (R10, R12). -/
  x : Vector Byte 8
  /-- The program counter, 9 bits (R14). -/
  pc : Word9
  /-- The running flag (R16). -/
  running : Bool
  /-- The fault record (R17). -/
  fault : Option FaultRecord
  /-- The memory cells (R30). -/
  mem : Memory
  /-- The output stream, oldest value first (R18). -/
  out : List Byte
deriving DecidableEq, Repr

/-- Reasons a step stops with no next state: there is none. Every fault of this machine is a state change the spec
describes (R134) and is taken as a next state (log entry 3), so nobody raises a stop; safe. -/
inductive Fault where
deriving DecidableEq, Repr

/-- Reasons the model gives an instruction no meaning. -/
inductive Refusal where
  /-- An instruction the model has not reached: raised by an arm of `exec` alone, and by none now; safe. -/
  | notModelled (mnemonic : String)
deriving DecidableEq, Repr

/-- The machine right after reset, every value the spec's (R20, R150): memory lists nothing, so every cell is zero. -/
def State.reset : State where
  x := #v[0#8, 0#8, 0#8, 0#8, 0#8, 0#8, 0#8, Config.spReset]
  pc := Config.pcReset
  running := true
  fault := none
  mem := []
  out := []

end Sys2Proof.Machine
end

