-- ==== Sys2Proof/Machine/Ops.lean ====
section
/-! DEFINITION. The named operations over registers, memory, program counter and output, and taking a fault. -/

namespace Sys2Proof.Machine

/-! ### Registers -/

/-- Reading register `r` (R10): no register is hard-wired. -/
def State.reg (s : State) (r : RegIdx) : Byte := s.x[r.val]

/-- Writing register `r` (R10, R12): 7 is written like any other. -/
def State.setReg (s : State) (r : RegIdx) (v : Byte) : State := { s with x := s.x.set r.val v }

/-- The stack pointer, another name of `x[7]` (R12). -/
def State.sp (s : State) : Byte := s.reg Config.spIndex

/-- The first action of a push: `x[7]` down by one, modulo 256 (R110, R112; the wrap: log entry 5). -/
def State.decSp (s : State) : State := s.setReg Config.spIndex (s.sp - 1#8)

/-- The second action of a pop: `x[7]` up by one, modulo 256 (R111, R112; the wrap: log entry 5). -/
def State.incSp (s : State) : State := s.setReg Config.spIndex (s.sp + 1#8)

/-! ### Memory -/

/-- The value of cell `a`: an unlisted cell holds zero (R152: "zero-initialized"). -/
def Memory.read : Memory → Nat → Byte
  | [], _ => 0#8
  | (b, w) :: rest, a => if a = b then w else Memory.read rest a

/-- Storing `v` in cell `a`, keeping the canonical form: a zero is stored by listing nothing. -/
def Memory.write : Memory → Nat → Byte → Memory
  | [], a, v => if v = 0#8 then [] else [(a, v)]
  | (b, w) :: rest, a, v =>
    if a < b then (if v = 0#8 then (b, w) :: rest else (a, v) :: (b, w) :: rest)
    else if a = b then (if v = 0#8 then rest else (a, v) :: rest)
    else (b, w) :: Memory.write rest a v

/-- The value of cell `a` of a state; zero outside 0..255, where no cell is. -/
def State.cell (s : State) (a : Nat) : Byte := s.mem.read a

/-- Fault `OutOfRangeAddress(addr)` (R131). -/
def outOfRangeAddress (addr : Nat) : FaultRecord :=
  { cause := .outOfRangeAddress, info := BitVec.ofNat 9 addr }

/-- `MemRead(addr, 1)` (R32): one cell; above 255 a fault, never a wrap. -/
def State.memRead (s : State) (addr : Nat) : Except FaultRecord Byte :=
  if addr < Config.memCells then .ok (s.cell addr) else .error (outOfRangeAddress addr)

/-- `MemWrite(addr, 1, v)` (R33): one cell; above 255 a fault. -/
def State.memWrite (s : State) (addr : Nat) (v : Byte) : Except FaultRecord State :=
  if addr < Config.memCells then .ok { s with mem := s.mem.write addr v }
  else .error (outOfRangeAddress addr)

/-! ### Program counter and output -/

/-- The generic advance `pc <- pc + 1 + ir[7:6]` (R76); 9 bits hold it without wrap from every fetched `pc` (log
entry 4). -/
def State.advance (s : State) (op : Byte) : State := { s with pc := s.pc + BitVec.ofNat 9 (1 + operandCount op) }

/-- An explicit control transfer to an 8-bit address, nothing added (R77, R122). -/
def State.jump (s : State) (target : Byte) : State := { s with pc := target.setWidth 9 }

/-- `Out(v)`: one value appended to the output stream (R18). -/
def State.emit (s : State) (v : Byte) : State := { s with out := s.out ++ [v] }

/-- Clearing the running flag (R16). -/
def State.stop (s : State) : State := { s with running := false }

/-! ### Faults -/

/-- Fault entry, `raise <Cause>(info)` (R134): `running` falls, the record is written, nothing else changes and
control goes nowhere. There is no return from it (R135). -/
def State.raise (s : State) (f : FaultRecord) : State := { s with running := false, fault := some f }

/-- A step that ends in a fault: the next state is the fault entry on the state before the step (R134, log entry 3). -/
def State.takeFault (s : State) (f : FaultRecord) : Host.Outcome State Fault Refusal := .next (s.raise f)

/-- A check or access made on behalf of the instruction executing at `s`: go on with its result, or fault with no other
change to `s` (R71, R134). -/
def State.orFault {α : Type} (s : State) (c : Except FaultRecord α)
    (k : α → Host.Outcome State Fault Refusal) : Host.Outcome State Fault Refusal :=
  match c with
  | .ok v => k v
  | .error f => s.takeFault f

/-- What happens while `running` is false: the engine performs no step and the state is frozen (R78). DESIGN CHOICE
(log entry 2): the step function answers the same state. -/
def State.frozen (s : State) : Host.Outcome State Fault Refusal := .next s

end Sys2Proof.Machine
end

