-- ==== Sys2Proof/Machine/Alu.lean ====
section
/-! DEFINITION. The ALU (R100): three operations behind a 2-bit select. The machine has no flags (R21), so this file stands where a flag file would. -/

namespace Sys2Proof.Machine

/-- The width of the ALU's operation select (R23, R100). -/
abbrev AluSelect := BitVec 2

/-- Select code of ADD (R100). -/
def aluAdd : AluSelect := 0#2

/-- Select code of SUBTRACT (R100), which no opcode dispatches (R103). -/
def aluSubtract : AluSelect := 1#2

/-- Select code of MULTIPLY (R100). -/
def aluMultiply : AluSelect := 2#2

/-- Fault `UnsupportedALUOperation(op)` (R105, R131). -/
def unsupportedALUOperation (op : AluSelect) : FaultRecord :=
  { cause := .unsupportedALUOperation, info := op.setWidth 9 }

/-- The 8-bit result of an operation on the two operand values, modulo 256 (R100, R104). -/
def aluResult (op : AluSelect) (u v : Byte) : Except FaultRecord Byte :=
  if op = aluAdd then .ok (u + v)
  else if op = aluSubtract then .ok (u - v)
  else if op = aluMultiply then .ok (u * v)
  else .error (unsupportedALUOperation op)

/-- `ALU(op, d, s)` (R100): both registers are read before the write; nothing but `x[d]` changes, and on an
unsupported select not even that (R105). -/
def State.alu (s : State) (op : AluSelect) (dst src : RegIdx) : Except FaultRecord State :=
  match aluResult op (s.reg dst) (s.reg src) with
  | .ok v => .ok (s.setReg dst v)
  | .error f => .error f

end Sys2Proof.Machine
end

