-- ==== Sys2Proof/Machine/Operands.lean ====
section
/-! DEFINITION. The operand forms: a register number from an operand byte; the immediate is the byte itself (R52). -/

namespace Sys2Proof.Machine

/-- Fault `OutOfRangeRegister(b)` (R131). -/
def outOfRangeRegister (b : Byte) : FaultRecord :=
  { cause := .outOfRangeRegister, info := b.setWidth 9 }

/-- `RegIndex(b)` (R13): all eight bits are compared, nothing is masked. -/
def regIndex (b : Byte) : Except FaultRecord RegIdx :=
  if h : b.toNat < 8 then .ok ⟨b.toNat, h⟩ else .error (outOfRangeRegister b)

/-- CALL's return address, `pc + 2`, which must fit a cell (R120, check 7 of R74; log entry 10). -/
def returnAddress (s : State) : Except FaultRecord Byte :=
  if s.pc.toNat + 2 < Config.memCells then .ok (BitVec.ofNat 8 (s.pc.toNat + 2))
  else .error (outOfRangeAddress (s.pc.toNat + 2))

end Sys2Proof.Machine
end

