-- ==== Sys2Proof/Machine/Arithmetic.lean ====
section
/-! DEFINITION. ADD and MULTIPLY (42_alu.md). -/

namespace Sys2Proof.Machine

/-- An instruction of the ALU: operand `a` is checked before `b` (R74), then the ALU acts and `pc` advances. -/
def State.aluInstr (s : State) (op : AluSelect) (opcode a b : Byte) : Host.Outcome State Fault Refusal :=
  s.orFault (regIndex a) fun dst =>
  s.orFault (regIndex b) fun src =>
  s.orFault (s.alu op dst src) fun t => .next (t.advance opcode)

/-- ADD (R101): `x[a] <- (x[a] + x[b]) mod 256`. -/
def execAdd (a b : Byte) (s : State) : Host.Outcome State Fault Refusal :=
  s.aluInstr aluAdd opcodes.add a b

/-- MULTIPLY (R102): `x[a] <- (x[a] * x[b]) mod 256`. -/
def execMultiply (a b : Byte) (s : State) : Host.Outcome State Fault Refusal :=
  s.aluInstr aluMultiply opcodes.multiply a b

end Sys2Proof.Machine
end

