-- ==== Sys2Proof/Machine/Control.lean ====
section
/-! DEFINITION. CALL and RET (44_control_transfer.md). -/

namespace Sys2Proof.Machine

/-- CALL (R120): all checks first (R74), then the stack pointer falls, the return address goes to the new top, and
`pc` takes `x[a]`, read after the fall. -/
def execCall (a : Byte) (s : State) : Host.Outcome State Fault Refusal :=
  s.orFault (regIndex a) fun r =>
  s.orFault (returnAddress s) fun ret =>
  s.orFault (s.decSp.memWrite s.decSp.sp.toNat ret) fun t => .next (t.jump (t.reg r))

/-- RET (R121): the top of the stack goes to `pc`, and the stack pointer rises. -/
def execRet (s : State) : Host.Outcome State Fault Refusal :=
  s.orFault (s.memRead s.sp.toNat) fun t => .next (s.incSp.jump t)

end Sys2Proof.Machine
end

