-- ==== Sys2Proof/Machine/Stack.lean ====
section
/-! DEFINITION. PUSH and POP (43_stack.md). -/

namespace Sys2Proof.Machine

/-- PUSH (R110): the stack pointer falls first, then `x[a]`, read after that, goes to the new top. -/
def execPush (a : Byte) (s : State) : Host.Outcome State Fault Refusal :=
  s.orFault (regIndex a) fun r =>
  s.orFault (s.decSp.memWrite s.decSp.sp.toNat (s.decSp.reg r)) fun t => .next (t.advance opcodes.push)

/-- POP (R111): the top of the stack goes to `x[a]` first, then the stack pointer, read after that, rises. -/
def execPop (a : Byte) (s : State) : Host.Outcome State Fault Refusal :=
  s.orFault (regIndex a) fun r =>
  s.orFault (s.memRead s.sp.toNat) fun v => .next ((s.setReg r v).incSp.advance opcodes.pop)

end Sys2Proof.Machine
end

