-- ==== Sys2Proof/Machine/SystemAndData.lean ====
section
/-! DEFINITION. HALT, LOAD_IMMEDIATE, PRINT_REGISTER (41_system_and_data.md). -/

namespace Sys2Proof.Machine

/-- Parameter `HALT_ADVANCES_PC` at its default (R5, R90; log entry 6): the halted `pc` is the address of the HALT
byte. -/
def haltAdvancesPc : Bool := false

/-- HALT (R90): `running` falls; `pc` stays (R77). -/
def execHalt (s : State) : Host.Outcome State Fault Refusal :=
  .next (if haltAdvancesPc then (s.advance opcodes.halt).stop else s.stop)

/-- LOAD_IMMEDIATE (R91): `x[a] <- imm`. -/
def execLoadImmediate (a imm : Byte) (s : State) : Host.Outcome State Fault Refusal :=
  s.orFault (regIndex a) fun r => .next ((s.setReg r imm).advance opcodes.loadImmediate)

/-- PRINT_REGISTER (R92): `x[a]` appended to the output. -/
def execPrintRegister (a : Byte) (s : State) : Host.Outcome State Fault Refusal :=
  s.orFault (regIndex a) fun r => .next ((s.emit (s.reg r)).advance opcodes.printRegister)

end Sys2Proof.Machine
end

