-- ==== Sys2Proof/Machine/Fetch.lean ====
section
/-! DEFINITION. Fetch and operand fetch (R72, R73): the bytes at `pc`, the instruction they spell, or the fault they meet. -/

namespace Sys2Proof.Machine

/-- The first `n` bytes from address `a`, as far as there are cells. -/
def State.bytesFrom (s : State) : Nat → Nat → List Byte
  | 0, _ => []
  | n + 1, a => if a < Config.memCells then s.cell a :: State.bytesFrom s n (a + 1) else []

/-- The bytes an instruction at `pc` can have: three, the longest (R58), fewer at the end of memory (R59). -/
def State.fetchBytes (s : State) : List Byte := s.bytesFrom 3 s.pc.toNat

/-- Fault `IllegalInstruction(op)` (R56, R131). -/
def illegalInstruction (op : Byte) : FaultRecord :=
  { cause := .illegalInstruction, info := op.setWidth 9 }

/-- The fault a decoding error is: an illegal opcode (R56), or the address `pc + k` of the first byte that is not there
(R72, R73). -/
def State.decodeFault (s : State) : DecodeError → FaultRecord
  | .illegal op => illegalInstruction op
  | .truncated k => outOfRangeAddress (s.pc.toNat + k)

/-- Checks 1 to 4 of R74 and the instruction they let through, its operand bytes latched (R19). -/
def State.fetch (s : State) : Except FaultRecord Instr :=
  match decode s.fetchBytes with
  | .ok (i, _) => .ok i
  | .error e => .error (s.decodeFault e)

/-- Bytes stored at ascending addresses from `a`, as far as there are cells. -/
def Memory.store : Memory → Nat → List Byte → Memory
  | m, _, [] => m
  | m, a, v :: rest => Memory.store (if a < Config.memCells then m.write a v else m) (a + 1) rest

end Sys2Proof.Machine
end

