-- ==== Sys2Proof/Machine/Step.lean ====
section
/-! DEFINITION. The step (R70, R71), and the placing of one table word where it fetches. -/

namespace Sys2Proof.Machine

/-- One step: while running, fetch and decode, then execute the instruction or take the fault; while stopped, nothing
(R78). -/
def step (s : State) : Host.Outcome State Fault Refusal :=
  if s.running then s.orFault s.fetch fun i => exec i s else s.frozen

/-- `s` with a table word's bytes stored at `pc`, the longest instruction's three (fewer at the end of memory), and
running, so that the next step fetches it; standing for the host's preload (R154, log entry 13). -/
def State.withFetchWord (s : State) (nbits w : Nat) : State :=
  { s with running := true, mem := s.mem.store s.pc.toNat (tableBytes nbits w) }

end Sys2Proof.Machine
end

