-- ==== Sys2Proof/Machine/HostSide.lean ====
section
/-! DEFINITION. What the host does and sees (R154): the launch from an image, the status port, the output as numerals. -/

namespace Sys2Proof.Machine

/-- The launch premises on an image of raw words: at most 256 of them, each a byte (R152). -/
def launchable (image : List Nat) : Bool :=
  decide (image.length ≤ Config.memCells) && image.all fun w => decide (w < 256)

/-- The launch state: reset, with the image from address 0 and zero in every other cell; an image that breaks a premise
is refused (R150, R151, R152; log entry 13). It leaves nothing of an earlier run, halted or faulted. -/
def launch (image : List Nat) : Option State :=
  if launchable image then
    some { State.reset with
      mem := Memory.store State.reset.mem Config.pcReset.toNat (image.map fun w => BitVec.ofNat 8 w) }
  else none

/-- The 3-bit code of a cause (R131). -/
def FaultCause.code : FaultCause → BitVec 3
  | .illegalInstruction => 1#3
  | .outOfRangeAddress => 2#3
  | .outOfRangeRegister => 3#3
  | .unsupportedALUOperation => 4#3

/-- The status port: `running`, cause code and `info`; code 0 and info 0 while there is no fault (R23, R131). -/
def State.status (s : State) : Bool × BitVec 3 × Word9 :=
  match s.fault with
  | none => (s.running, 0#3, 0#9)
  | some f => (s.running, f.cause.code, f.info)

/-- The output stream as text: one decimal numeral for each value, in order; the line terminator is left out (R18). -/
def State.outNumerals (s : State) : List String := s.out.map fun v => toString v.toNat

end Sys2Proof.Machine
end

