-- ==== Sys2Proof/Machine/Pseudocode.lean ====
section
/-! DEFINITION. Two transcriptions of the spec's own tables, for the model to be held against: the check list of R74 and the whole step of R79. Neither is called by `step`. -/

namespace Sys2Proof.Machine

/-- A byte is one of the nine opcode values (R55). -/
def knownOpcode (ir : Byte) : Bool :=
  decide (ir ∈ [opcodes.halt, opcodes.loadImmediate, opcodes.printRegister, opcodes.add, opcodes.multiply,
    opcodes.push, opcodes.pop, opcodes.call, opcodes.ret])

/-- The first condition of R74's list that holds at `s`, as the fault it raises. -/
def State.firstFault (s : State) : Option FaultRecord :=
  let pc := s.pc.toNat
  let ir := s.cell pc
  let n := operandCount ir
  let opa := s.cell (pc + 1)
  let opb := s.cell (pc + 2)
  if pc > 255 then some ⟨.outOfRangeAddress, BitVec.ofNat 9 pc⟩
  else if knownOpcode ir = false then some ⟨.illegalInstruction, BitVec.ofNat 9 ir.toNat⟩
  else if n ≥ 1 ∧ pc + 1 > 255 then some ⟨.outOfRangeAddress, BitVec.ofNat 9 (pc + 1)⟩
  else if n = 2 ∧ pc + 2 > 255 then some ⟨.outOfRangeAddress, BitVec.ofNat 9 (pc + 2)⟩
  else if n ≥ 1 ∧ opa.toNat > 7 then some ⟨.outOfRangeRegister, BitVec.ofNat 9 opa.toNat⟩
  else if (ir = opcodes.add ∨ ir = opcodes.multiply) ∧ opb.toNat > 7 then
    some ⟨.outOfRangeRegister, BitVec.ofNat 9 opb.toNat⟩
  else if ir = opcodes.call ∧ pc + 2 > 255 then some ⟨.outOfRangeAddress, BitVec.ofNat 9 (pc + 2)⟩
  else none

/-- `x[i]` for a natural number `i`, the last register standing for all above it. -/
def State.xAt (s : State) (i : Nat) : Byte := s.reg (Fin.ofNat 8 i)

/-- `x[i] <- v`, the value a mathematical integer narrowed by `mod 256`. -/
def State.setX (s : State) (i v : Nat) : State := s.setReg (Fin.ofNat 8 i) (BitVec.ofNat 8 (v % 256))

/-- `mem[a] <- v`, the value narrowed by `mod 256`. -/
def State.setCell (s : State) (a v : Nat) : State := { s with mem := s.mem.write a (BitVec.ofNat 8 (v % 256)) }

/-- `pc <- v`. -/
def State.setPc (s : State) (v : Nat) : State := { s with pc := BitVec.ofNat 9 v }

/-- Phases 3 and 4 of the step of R79, on mathematical integers: `ir` with operand bytes `a` and `opb`, once every check
has passed. -/
def State.pseudoExecute (s : State) (ir : Byte) (a : Nat) (opb : Byte) : State :=
  let pc := s.pc.toNat
  let next := pc + 1 + operandCount ir
  let b := opb.toNat
  if ir = opcodes.halt then s.stop
  else if ir = opcodes.loadImmediate then (s.setX a b).setPc next
  else if ir = opcodes.printRegister then (s.emit (s.xAt a)).setPc next
  else if ir = opcodes.add then (s.setX a ((s.xAt a).toNat + (s.xAt b).toNat)).setPc next
  else if ir = opcodes.multiply then (s.setX a ((s.xAt a).toNat * (s.xAt b).toNat)).setPc next
  else if ir = opcodes.push then
    let s1 := s.setX 7 ((s.xAt 7).toNat + 255)
    (s1.setCell (s1.xAt 7).toNat (s1.xAt a).toNat).setPc next
  else if ir = opcodes.pop then
    let s1 := s.setX a (s.cell (s.xAt 7).toNat).toNat
    (s1.setX 7 ((s1.xAt 7).toNat + 1)).setPc next
  else if ir = opcodes.call then
    let s1 := s.setX 7 ((s.xAt 7).toNat + 255)
    let s2 := s1.setCell (s1.xAt 7).toNat (pc + 2)
    s2.setPc (s2.xAt a).toNat
  else
    let t := s.cell (s.xAt 7).toNat
    (s.setX 7 ((s.xAt 7).toNat + 1)).setPc t.toNat

/-- The whole step of R79, defined while `running`. -/
def State.pseudoStep (s : State) : State :=
  match s.firstFault with
  | some f => s.raise f
  | none => s.pseudoExecute (s.cell s.pc.toNat) (s.cell (s.pc.toNat + 1)).toNat (s.cell (s.pc.toNat + 2))

end Sys2Proof.Machine
end

