-- ==== Sys2Proof/Safety.lean ====
section
/-! DEFINITION. What claims are stated in: how a run ends, the invariant of the machine, what an instruction leaves alone. -/

namespace Sys2Proof.Machine

/-- A normal end: stopped without a fault (R78). -/
def State.halted (s : State) : Prop := s.running = false ∧ s.fault = none

/-- An abnormal end: stopped with a fault recorded (R78). -/
def State.faulted (s : State) : Prop := s.running = false ∧ s.fault ≠ none

/-- A safe step: it does not end the run in a fault. -/
def State.stepsSafely (s : State) : Prop := ∃ t, step s = .next t ∧ ¬ t.faulted

/-- What holds of every state a run passes through: memory is canonical; `pc` is in 0..258 (R14); no fault is recorded
while running (R17); a halted `pc` addresses a HALT byte (R90); a recorded fault is the first failing check of R74 at
the `pc` it left (R134). -/
structure State.Inv (s : State) : Prop where
  memory : s.mem.wf = true
  pcRange : s.pc.toNat ≤ 258
  runningClean : s.running = true → s.fault = none
  haltedAtHalt : s.halted → s.pc.toNat ≤ 255 ∧ s.cell s.pc.toNat = opcodes.halt
  faultExplained : ∀ f, s.fault = some f → s.firstFault = some f

/-- Every register but `r` and `r'` is as before. -/
def RegsKeptBut (r r' : RegIdx) (s t : State) : Prop := ∀ q, q ≠ r → q ≠ r' → t.reg q = s.reg q

/-- Every register is as before. -/
def RegsKept (s t : State) : Prop := ∀ q, t.reg q = s.reg q

/-- Every cell is as before. -/
def CellsKept (s t : State) : Prop := ∀ a, t.cell a = s.cell a

/-- Every cell but cell `a` is as before. -/
def CellsKeptBut (a : Nat) (s t : State) : Prop := ∀ b, b ≠ a → t.cell b = s.cell b

/-- The running flag and the fault record are as before. -/
def ControlKept (s t : State) : Prop := t.running = s.running ∧ t.fault = s.fault

/-- The output stream is as before. -/
def OutKept (s t : State) : Prop := t.out = s.out

/-- A fault record from a cause and its `info` as a number (R131). -/
def faultOf (c : FaultCause) (info : Nat) : FaultRecord := ⟨c, BitVec.ofNat 9 info⟩

/-- The state after a list of checks made in order at `s` (R74): fault entry at the first that holds, else `t`. -/
def State.checked (s : State) : List (Bool × FaultRecord) → State → State
  | [], t => t
  | (holds, f) :: rest, t => if holds then s.raise f else State.checked s rest t

/-- The instructions one after another by their execute phase, stopping where there is no next state. -/
def execAll : List Instr → State → Host.Outcome State Fault Refusal
  | [], s => .next s
  | i :: rest, s =>
    match exec i s with
    | .next t => execAll rest t
    | .fault r => .fault r
    | .refused r => .refused r

end Sys2Proof.Machine
end

