-- ==== Sys2Proof/Certificates/Slice0/Obligations.lean ====
section
/-! DEFINITION. The statements for the provers. Opcode values are named, never written as numbers, but where a docstring says so: by R54 every rule but R55 is independent of them (log entry 1). -/

open Sys2Proof Sys2Proof.Machine

/-! ### Reset, launch and the end of a run -/

/-- The state after reset (10_state.md section 9; its last sentence marks the values of `fault` and `out` as the spec's
own), its memory zero (log entry 13, DEDUCED), and the cells at launch: the image from address 0, zero elsewhere
(70_reset_and_hazards.md section 2; the spec's own decision D15, log entry 13). -/
def Obligations.ResetAndLaunchValues : Prop :=
  (State.reset.pc = 0#9 ∧ State.reset.running = true ∧ (∀ r : RegIdx, r ≠ 7 → State.reset.reg r = 0#8) ∧
    State.reset.reg 7 = 0xF4#8 ∧ State.reset.fault = none ∧ State.reset.out = [] ∧
    ∀ a, State.reset.cell a = 0#8) ∧
  ∀ (image : List Nat) (s : State), launch image = some s →
    { s with mem := State.reset.mem } = State.reset ∧
    ∀ a, (s.cell a).toNat = image.getD a 0

/-- The launch premises (70_reset_and_hazards.md section 2; the spec's own decision D15, log entry 13): an image is
refused exactly when it is longer than 256 words or holds a word above 255; a launched machine meets the invariant. -/
def Obligations.LaunchPremises : Prop :=
  ∀ image : List Nat,
    (launch image = none ↔ 256 < image.length ∨ ∃ w ∈ image, 255 < w) ∧
    ∀ s, launch image = some s → s.Inv

/-- The invariant of the machine holds at reset. -/
def Obligations.ResetMeetsInvariant : Prop := State.reset.Inv

/-- Every step keeps the invariant, from every state that meets it: canonical memory, `pc` in 0..258, no fault recorded
while running, a halted `pc` at a HALT byte (D4, log entry 6), a recorded fault that the first failing check at the
machine's `pc` explains (D7, log entry 7). -/
def Obligations.StepKeepsInvariant : Prop :=
  ∀ s t : State, s.Inv → step s = .next t → t.Inv

/-- The machine with no image: the first step faults with `pc` at 0 (70_reset_and_hazards.md section 2, the empty image).
Cell 0 holds zero (log entry 13, DEDUCED); zero is no opcode under the values taken (log entry 1, PRESUMED), though
another admissible assignment could give it to HALT; and a byte that is no opcode faults (D5, log entry 12). -/
def Obligations.EmptyMachineFaultsAtOnce : Prop :=
  step State.reset = .next (State.reset.raise (faultOf .illegalInstruction 0))

/-- A stopped machine, halted or faulted, is frozen, however many steps are asked of it (40_engine.md section 4;
that the step function answers the same state is the model's choice, log entry 2). -/
def Obligations.StoppedMachineFrozen : Prop :=
  ∀ (s : State) (k : Nat), s.running = false → Sys2Proof.core.run k s = .next s

/-- From every state a step answers a next state, and nothing stops the model. The spec defines the step only while
running (40_engine.md section 1), where a fault is taken as a next state (log entry 3, DEDUCED); that a stopped state
answers a next state is the model's choice (log entry 2, DESIGN CHOICE). -/
def Obligations.StepAlwaysAnswersNext : Prop := ∀ s : State, ∃ t, step s = .next t

/-- A run ends normally only by HALT (40_engine.md section 4), whose step clears `running` and changes nothing else
(D4, log entry 6). -/
def Obligations.OnlyHaltEndsNormally : Prop :=
  ∀ s t : State, s.running = true → s.fault = none → step s = .next t → t.halted →
    s.pc.toNat ≤ 255 ∧ s.cell s.pc.toNat = opcodes.halt ∧ t = { s with running := false }

/-- The running flag (10_state.md section 5): reset sets it; a step clears it exactly by HALT or a fault; no number of
steps sets it again. -/
def Obligations.RunningFlagOnlyFalls : Prop :=
  State.reset.running = true ∧
  (∀ s t : State, s.running = true → step s = .next t →
    (t.running = false ↔
      (s.pc.toNat ≤ 255 ∧ s.cell s.pc.toNat = opcodes.halt) ∨ ∃ f, t = s.raise f)) ∧
  ∀ (k : Nat) (s t : State), Sys2Proof.core.run k s = .next t → t.running = true → s.running = true

/-! ### Encoding -/

/-- Words written out from the opcode table: their bytes decode to the instructions they stand for; the value of
SUBTRACT's byte in LS-8, of an unloaded cell and of a count field of 3 do not (values: PRESUMED, log entry 1). -/
def Obligations.TableWordsDecode : Prop :=
  decodeTableWord 8 0b00000001 = some .halt ∧
  decodeTableWord 24 0b00001000_00000000_10000010 = some (.loadImmediate 0#8 8#8) ∧
  decodeTableWord 16 0b00000111_01000111 = some (.printRegister 7#8) ∧
  decodeTableWord 24 0b00000001_00000010_10100000 = some (.add 2#8 1#8) ∧
  decodeTableWord 24 0b00000001_00000010_10100010 = some (.multiply 2#8 1#8) ∧
  decodeTableWord 16 0b00000011_01000101 = some (.push 3#8) ∧
  decodeTableWord 16 0b00000011_01000110 = some (.pop 3#8) ∧
  decodeTableWord 16 0b00000001_01010000 = some (.call 1#8) ∧
  decodeTableWord 8 0b00010001 = some .ret ∧
  decodeTableWord 24 0b00000001_00000010_10100001 = none ∧
  decodeTableWord 8 0b00000000 = none ∧
  decodeTableWord 8 0b11000000 = none

/-- Decoding the encoding of any instruction gives it back, every operand byte at every value, whatever bytes follow and
whatever values meeting the source's constraint the nine opcodes have. -/
def Obligations.DecodeOfEncode : Prop :=
  ∀ m : OpcodeMap, m.Admissible → ∀ (i : Instr) (rest : List Byte),
    decodeWith m (encodeWith m i ++ rest) = .ok (i, rest)

/-- Bytes that decode are the encoding of what they decode to, followed by what is handed back. -/
def Obligations.DecodedBytesAreTheEncoding : Prop :=
  ∀ (m : OpcodeMap) (bytes rest : List Byte) (i : Instr),
    decodeWith m bytes = .ok (i, rest) → bytes = encodeWith m i ++ rest

/-- R53: the first byte alone, compared whole with the nine values, selects the instruction; a byte equal to none of them
is illegal whatever follows it. -/
def Obligations.DecodingIsExactComparison : Prop :=
  ∀ m : OpcodeMap, m.Admissible →
    (∀ (o : Opcode) (bytes rest : List Byte) (i : Instr), decodeWith m (m.value o :: bytes) = .ok (i, rest) →
      (encodeWith m i).head? = some (m.value o)) ∧
    (∀ o : Opcode, ∀ bytes : List Byte, o.operands ≤ bytes.length →
      ∃ i rest, decodeWith m (m.value o :: bytes) = .ok (i, rest)) ∧
    ∀ op : Byte, (∀ o : Opcode, m.value o ≠ op) →
      ∀ bytes, decodeWith m (op :: bytes) = .error (.illegal op)

/-- The nine opcode values taken (30_encoding.md section 3; PRESUMED, log entry 1) are distinct, and bits [7:6] of each are
its operand count, the source's constraint. -/
def Obligations.OpcodeValuesMeetConstraint : Prop :=
  (∀ o o' : Opcode, opcodes.value o = opcodes.value o' → o = o') ∧
  ∀ o : Opcode, operandCount (opcodes.value o) =
    match o with
    | .halt => 0 | .loadImmediate => 2 | .printRegister => 1 | .add => 2 | .multiply => 2
    | .push => 1 | .pop => 1 | .call => 1 | .ret => 0

/-- R58: the length is 1 + ir[7:6], known from the first byte, at most 3; a first byte whose count field is 3 is illegal,
whatever values meeting the constraint the opcodes have. -/
def Obligations.LengthFromFirstByte : Prop :=
  ∀ m : OpcodeMap, m.Admissible →
    (∀ (op : Byte) (bytes rest : List Byte) (i : Instr), decodeWith m (op :: bytes) = .ok (i, rest) →
      (op :: bytes).length = 1 + operandCount op + rest.length ∧ 1 + operandCount op ≤ 3) ∧
    ∀ op : Byte, operandCount op = 3 → ∀ bytes, decodeWith m (op :: bytes) = .error (.illegal op)

/-! ### The step -/

/-- When the bytes at `pc` decode to a well-formed instruction, the step is that instruction's execute phase and nothing
around it. -/
def Obligations.StepRunsDecoded : Prop :=
  ∀ (s : State) (i : Instr) (rest : List Byte), s.running = true → decode s.fetchBytes = .ok (i, rest) →
    i.wellFormed = true → step s = exec i s

/-- When the cells from `pc` on hold an instruction's encoding, the step is that instruction's execute phase, for every
instruction and at every address, the last cell included. -/
def Obligations.StepRunsWhatMemoryHolds : Prop :=
  ∀ (s : State) (i : Instr), s.running = true →
    (∀ (k : Nat) (b : Byte), (encode i)[k]? = some b → s.pc.toNat + k ≤ 255 ∧ s.cell (s.pc.toNat + k) = b) →
    step s = exec i s

/-- A fetch at `pc` above 255 raises `OutOfRangeAddress(pc)` (40_engine.md section 1; that `pc` can stand there is the
spec's decision D3, log entry 4); otherwise the first byte fetched is the cell at `pc`. -/
def Obligations.FetchAtProgramCounter : Prop :=
  ∀ s : State, s.running = true →
    (255 < s.pc.toNat → step s = .next (s.raise (faultOf .outOfRangeAddress s.pc.toNat))) ∧
    (s.pc.toNat ≤ 255 → s.fetchBytes.head? = some (s.cell s.pc.toNat) ∧
      s.memRead s.pc.toNat = .ok (s.cell s.pc.toNat))

/-- From every running state the step, built from fetch, decoder, dispatcher and meanings, gives the state the spec's
pseudocode of the whole step gives (40_engine.md section 5). Its HALT leaves `pc` (D4, log entry 6); it also writes out
D2, D7, D8, D10 and D11 (log entries 5, 7, 8, 9, 10). -/
def Obligations.StepRefinesPseudocode : Prop :=
  ∀ s : State, s.running = true → step s = .next s.pseudoStep

/-- The new `pc` (40_engine.md section 3). After a step without a fault it is `pc + 1 + ir[7:6]` as a number, not wrapped
(D3, log entry 4), but for CALL (the target register; for register 7 the stack pointer after its fall, which
44_control_transfer.md section 2 infers, wrapped: D2 and D8, log entries 5 and 8), RET (the byte on top of the stack)
and HALT (unchanged: D4, log entry 6); a faulting step leaves `pc`. -/
def Obligations.ProgramCounterSequence : Prop :=
  ∀ s t : State, s.running = true → s.fault = none → step s = .next t →
    let ir := s.cell s.pc.toNat
    let opa := s.cell (s.pc.toNat + 1)
    (t.fault ≠ none → t.pc = s.pc) ∧
    (t.fault = none →
      (ir ≠ opcodes.halt → ir ≠ opcodes.call → ir ≠ opcodes.ret →
        t.pc.toNat = s.pc.toNat + 1 + operandCount ir) ∧
      (ir = opcodes.halt → t.pc = s.pc) ∧
      (ir = opcodes.call → ∀ r : RegIdx, opa.toNat = r.val →
        t.pc.toNat = (if r = 7 then s.reg 7 - 1#8 else s.reg r).toNat) ∧
      (ir = opcodes.ret → t.pc.toNat = (s.cell (s.reg 7).toNat).toNat))

/-! ### Faults -/

/-- A step from a running state records exactly the fault of the first check of R74's list that holds
(60_exceptions.md section 3; the order is the spec's decision D7, log entry 7). -/
def Obligations.FirstFailingCheckIsRecorded : Prop :=
  ∀ (s t : State) (f : FaultRecord), s.running = true → s.fault = none → step s = .next t →
    (t.fault = some f ↔ s.firstFault = some f)

/-- A faulting step changes `running` and `fault` and nothing else (60_exceptions.md section 4; no partial effect:
D7, log entry 7). -/
def Obligations.FaultChangesNothingElse : Prop :=
  ∀ s t : State, s.running = true → s.fault = none → step s = .next t → t.fault ≠ none →
    t.running = false ∧ RegsKept s t ∧ t.pc = s.pc ∧ CellsKept s t ∧ OutKept s t

/-- What each cause records (60_exceptions.md section 2; record and codes are the spec's decision D6, log entry 11): the
illegal byte; an address 256..258; an operand byte 8..255; and no step raises the ALU's fault. -/
def Obligations.FaultRecordsByCause : Prop :=
  ∀ (s t : State) (f : FaultRecord), s.running = true → s.fault = none → s.pc.toNat ≤ 258 → step s = .next t →
    t.fault = some f →
    match f.cause with
    | .illegalInstruction => f.info.toNat = (s.cell s.pc.toNat).toNat ∧
        ∀ o : Opcode, opcodes.value o ≠ s.cell s.pc.toNat
    | .outOfRangeAddress => 256 ≤ f.info.toNat ∧ f.info.toNat ≤ 258
    | .outOfRangeRegister => 8 ≤ f.info.toNat ∧ f.info.toNat ≤ 255
    | .unsupportedALUOperation => False

/-- Whether and how a step faults depends on `pc` and the three cells from it on alone: not on any register, on the stack,
or on the output (60_exceptions.md section 2). -/
def Obligations.FaultsIgnoreData : Prop :=
  ∀ s s' t t' : State, s.running = true → s'.running = true → s.fault = none → s'.fault = none → s'.pc = s.pc →
    (∀ k, k < 3 → s'.cell (s.pc.toNat + k) = s.cell (s.pc.toNat + k)) →
    step s = .next t → step s' = .next t' → t'.fault = t.fault

/-- A register operand above 7 raises `OutOfRangeRegister` with the whole byte, in every instruction that has one, operand
a before operand b (10_state.md section 2; the spec's decision D10, log entry 9). -/
def Obligations.BadRegisterOperandFaults : Prop :=
  ∀ (s : State) (a b : Byte) (r : RegIdx),
    let bad (c : Byte) := s.raise (faultOf .outOfRangeRegister c.toNat)
    (7 < a.toNat →
      exec (.loadImmediate a b) s = .next (bad a) ∧ exec (.printRegister a) s = .next (bad a) ∧
      exec (.add a b) s = .next (bad a) ∧ exec (.multiply a b) s = .next (bad a) ∧
      exec (.push a) s = .next (bad a) ∧ exec (.pop a) s = .next (bad a) ∧ exec (.call a) s = .next (bad a)) ∧
    (a.toNat = r.val → 7 < b.toNat →
      exec (.add a b) s = .next (bad b) ∧ exec (.multiply a b) s = .next (bad b))

/-- A well-formed instruction that lies in memory, and a CALL whose return address does too, steps without a fault, whatever
the registers, the stack and the output hold (60_exceptions.md section 2; CALL's address is D11, log entry 10). -/
def Obligations.WellFormedStepsSafely : Prop :=
  ∀ (s : State) (i : Instr), s.running = true → s.fault = none → i.wellFormed = true →
    (∀ (k : Nat) (b : Byte), (encode i)[k]? = some b → s.pc.toNat + k ≤ 255 ∧ s.cell (s.pc.toNat + k) = b) →
    (∀ a, i = .call a → s.pc.toNat + 2 ≤ 255) → s.stepsSafely

/-- The status port (10_state.md section 10, 60_exceptions.md section 2): `running`, and code and `info` of the fault,
both 0 where there is none (codes: the spec's decision D6, log entry 11). -/
def Obligations.StatusPortShowsFault : Prop :=
  ∀ s : State, s.status =
    (s.running, match s.fault with
      | none => (0#3, 0#9)
      | some ⟨.illegalInstruction, info⟩ => (1#3, info)
      | some ⟨.outOfRangeAddress, info⟩ => (2#3, info)
      | some ⟨.outOfRangeRegister, info⟩ => (3#3, info)
      | some ⟨.unsupportedALUOperation, info⟩ => (4#3, info))

/-! ### Each instruction's whole step, faults of operand fetch included -/

/-- HALT's step (41_system_and_data.md, HALT): `running` falls, nothing else (the unchanged `pc` is D4, log entry 6). -/
def Obligations.HaltWholeStep : Prop :=
  ∀ s : State, s.running = true → s.pc.toNat ≤ 255 → s.cell s.pc.toNat = opcodes.halt →
    step s = .next { s with running := false }

/-- R91: LOAD_IMMEDIATE's step. -/
def Obligations.LoadImmediateWholeStep : Prop :=
  ∀ s : State, s.running = true → s.pc.toNat ≤ 255 → s.cell s.pc.toNat = opcodes.loadImmediate →
    let pc := s.pc.toNat
    let opa := (s.cell (pc + 1)).toNat
    let opb := (s.cell (pc + 2)).toNat
    step s = .next (s.checked
      [(decide (255 < pc + 1), faultOf .outOfRangeAddress (pc + 1)),
       (decide (255 < pc + 2), faultOf .outOfRangeAddress (pc + 2)),
       (decide (7 < opa), faultOf .outOfRangeRegister opa)]
      ((s.setX opa opb).setPc (pc + 3)))

/-- R92: PRINT_REGISTER's step. -/
def Obligations.PrintRegisterWholeStep : Prop :=
  ∀ s : State, s.running = true → s.pc.toNat ≤ 255 → s.cell s.pc.toNat = opcodes.printRegister →
    let pc := s.pc.toNat
    let opa := (s.cell (pc + 1)).toNat
    step s = .next (s.checked
      [(decide (255 < pc + 1), faultOf .outOfRangeAddress (pc + 1)),
       (decide (7 < opa), faultOf .outOfRangeRegister opa)]
      { s with out := s.out ++ [s.xAt opa], pc := BitVec.ofNat 9 (pc + 2) })

/-- R101: ADD's step. -/
def Obligations.AddWholeStep : Prop :=
  ∀ s : State, s.running = true → s.pc.toNat ≤ 255 → s.cell s.pc.toNat = opcodes.add →
    let pc := s.pc.toNat
    let opa := (s.cell (pc + 1)).toNat
    let opb := (s.cell (pc + 2)).toNat
    step s = .next (s.checked
      [(decide (255 < pc + 1), faultOf .outOfRangeAddress (pc + 1)),
       (decide (255 < pc + 2), faultOf .outOfRangeAddress (pc + 2)),
       (decide (7 < opa), faultOf .outOfRangeRegister opa),
       (decide (7 < opb), faultOf .outOfRangeRegister opb)]
      ((s.setX opa ((s.xAt opa).toNat + (s.xAt opb).toNat)).setPc (pc + 3)))

/-- R102: MULTIPLY's step. -/
def Obligations.MultiplyWholeStep : Prop :=
  ∀ s : State, s.running = true → s.pc.toNat ≤ 255 → s.cell s.pc.toNat = opcodes.multiply →
    let pc := s.pc.toNat
    let opa := (s.cell (pc + 1)).toNat
    let opb := (s.cell (pc + 2)).toNat
    step s = .next (s.checked
      [(decide (255 < pc + 1), faultOf .outOfRangeAddress (pc + 1)),
       (decide (255 < pc + 2), faultOf .outOfRangeAddress (pc + 2)),
       (decide (7 < opa), faultOf .outOfRangeRegister opa),
       (decide (7 < opb), faultOf .outOfRangeRegister opb)]
      ((s.setX opa ((s.xAt opa).toNat * (s.xAt opb).toNat)).setPc (pc + 3)))

/-- PUSH's step (43_stack.md section 2; the wrap of the stack pointer is D2, log entry 5, the latched operand D8, log
entry 8): the cell written is the fallen stack pointer's, the value is read after the fall. -/
def Obligations.PushWholeStep : Prop :=
  ∀ s : State, s.running = true → s.pc.toNat ≤ 255 → s.cell s.pc.toNat = opcodes.push →
    let pc := s.pc.toNat
    let opa := (s.cell (pc + 1)).toNat
    let s1 := s.setX 7 ((s.xAt 7).toNat + 255)
    step s = .next (s.checked
      [(decide (255 < pc + 1), faultOf .outOfRangeAddress (pc + 1)),
       (decide (7 < opa), faultOf .outOfRangeRegister opa)]
      ((s1.setCell (s1.xAt 7).toNat (s1.xAt opa).toNat).setPc (pc + 2)))

/-- POP's step (43_stack.md section 3; the wrap is D2, log entry 5): the register is written first, then the stack
pointer, as it then stands, rises. -/
def Obligations.PopWholeStep : Prop :=
  ∀ s : State, s.running = true → s.pc.toNat ≤ 255 → s.cell s.pc.toNat = opcodes.pop →
    let pc := s.pc.toNat
    let opa := (s.cell (pc + 1)).toNat
    let s1 := s.setX opa (s.cell (s.xAt 7).toNat).toNat
    step s = .next (s.checked
      [(decide (255 < pc + 1), faultOf .outOfRangeAddress (pc + 1)),
       (decide (7 < opa), faultOf .outOfRangeRegister opa)]
      ((s1.setX 7 ((s1.xAt 7).toNat + 1)).setPc (pc + 2)))

/-- CALL's step (44_control_transfer.md section 2; wrap D2, log entry 5; latched operand D8, log entry 8; return address
D11, log entry 10): the target register is read after the stack pointer fell. -/
def Obligations.CallWholeStep : Prop :=
  ∀ s : State, s.running = true → s.pc.toNat ≤ 255 → s.cell s.pc.toNat = opcodes.call →
    let pc := s.pc.toNat
    let opa := (s.cell (pc + 1)).toNat
    let s1 := s.setX 7 ((s.xAt 7).toNat + 255)
    step s = .next (s.checked
      [(decide (255 < pc + 1), faultOf .outOfRangeAddress (pc + 1)),
       (decide (7 < opa), faultOf .outOfRangeRegister opa),
       (decide (255 < pc + 2), faultOf .outOfRangeAddress (pc + 2))]
      ((s1.setCell (s1.xAt 7).toNat (pc + 2)).setPc (s1.xAt opa).toNat))

/-- RET's step (44_control_transfer.md section 3; the wrap is D2, log entry 5). -/
def Obligations.RetWholeStep : Prop :=
  ∀ s : State, s.running = true → s.pc.toNat ≤ 255 → s.cell s.pc.toNat = opcodes.ret →
    step s = .next ((s.setX 7 ((s.xAt 7).toNat + 1)).setPc (s.cell (s.xAt 7).toNat).toNat)

/-! ### Each instruction completes: its result and its frame -/

/-- HALT completes in every state: `running` falls, everything else is as before (`pc`: D4, log entry 6). -/
def Obligations.HaltCompletes : Prop :=
  ∀ s : State, ∃ t, exec .halt s = .next t ∧ t.running = false ∧ t.fault = s.fault ∧ t.pc = s.pc ∧
    RegsKept s t ∧ CellsKept s t ∧ OutKept s t

/-- LOAD_IMMEDIATE completes on every register number: the register holds the immediate; nothing else but `pc`
changes. -/
def Obligations.LoadImmediateCompletes : Prop :=
  ∀ (s : State) (a imm : Byte) (r : RegIdx), a.toNat = r.val →
    ∃ t, exec (.loadImmediate a imm) s = .next t ∧ t.reg r = imm ∧ t.pc = s.pc + 3#9 ∧
      RegsKeptBut r r s t ∧ CellsKept s t ∧ OutKept s t ∧ ControlKept s t

/-- PRINT_REGISTER completes on every register number: the value is appended to the output; nothing else but `pc`
changes. -/
def Obligations.PrintRegisterCompletes : Prop :=
  ∀ (s : State) (a : Byte) (r : RegIdx), a.toNat = r.val →
    ∃ t, exec (.printRegister a) s = .next t ∧ t.out = s.out ++ [s.reg r] ∧ t.pc = s.pc + 2#9 ∧
      RegsKept s t ∧ CellsKept s t ∧ ControlKept s t

/-- ADD completes on every pair of register numbers, one register twice included: the sum modulo 256; nothing else but
`pc` changes. -/
def Obligations.AddCompletes : Prop :=
  ∀ (s : State) (a b : Byte) (r q : RegIdx), a.toNat = r.val → b.toNat = q.val →
    ∃ t, exec (.add a b) s = .next t ∧ (t.reg r).toNat = ((s.reg r).toNat + (s.reg q).toNat) % 256 ∧
      t.pc = s.pc + 3#9 ∧ RegsKeptBut r r s t ∧ CellsKept s t ∧ OutKept s t ∧ ControlKept s t

/-- MULTIPLY completes on every pair of register numbers, one register twice included: the product modulo 256; nothing
else but `pc` changes. -/
def Obligations.MultiplyCompletes : Prop :=
  ∀ (s : State) (a b : Byte) (r q : RegIdx), a.toNat = r.val → b.toNat = q.val →
    ∃ t, exec (.multiply a b) s = .next t ∧ (t.reg r).toNat = ((s.reg r).toNat * (s.reg q).toNat) % 256 ∧
      t.pc = s.pc + 3#9 ∧ RegsKeptBut r r s t ∧ CellsKept s t ∧ OutKept s t ∧ ControlKept s t

/-- PUSH completes on every register number and at every stack pointer: the stack pointer falls by one modulo 256 (D2, log
entry 5), the cell it then addresses holds the register, which for register 7 is the fallen stack pointer; nothing
else but `pc` changes. -/
def Obligations.PushCompletes : Prop :=
  ∀ (s : State) (a : Byte) (r : RegIdx), s.mem.wf = true → a.toNat = r.val →
    ∃ t, exec (.push a) s = .next t ∧ t.reg 7 = s.reg 7 - 1#8 ∧
      t.cell (s.reg 7 - 1#8).toNat = (if r = 7 then s.reg 7 - 1#8 else s.reg r) ∧ t.pc = s.pc + 2#9 ∧
      RegsKeptBut 7 7 s t ∧ CellsKeptBut (s.reg 7 - 1#8).toNat s t ∧ OutKept s t ∧ ControlKept s t

/-- POP completes on every register number and at every stack pointer: the register holds the cell on top, the stack
pointer rises by one modulo 256 (D2, log entry 5), for register 7 from the value popped; nothing else but `pc`
changes. -/
def Obligations.PopCompletes : Prop :=
  ∀ (s : State) (a : Byte) (r : RegIdx), a.toNat = r.val →
    ∃ t, exec (.pop a) s = .next t ∧
      (r ≠ 7 → t.reg r = s.cell (s.reg 7).toNat ∧ t.reg 7 = s.reg 7 + 1#8) ∧
      (r = 7 → t.reg 7 = s.cell (s.reg 7).toNat + 1#8) ∧ t.pc = s.pc + 2#9 ∧
      RegsKeptBut r 7 s t ∧ CellsKept s t ∧ OutKept s t ∧ ControlKept s t

/-- CALL completes on every register number and at every stack pointer, where the return address fits a cell (D11, log
entry 10): the stack pointer falls by one modulo 256 (D2, log entry 5), the cell it then addresses holds the return
address, `pc` the target, which for register 7 is the fallen stack pointer; nothing else changes. -/
def Obligations.CallCompletes : Prop :=
  ∀ (s : State) (a : Byte) (r : RegIdx), s.mem.wf = true → a.toNat = r.val → s.pc.toNat + 2 ≤ 255 →
    ∃ t, exec (.call a) s = .next t ∧ t.reg 7 = s.reg 7 - 1#8 ∧
      (t.cell (s.reg 7 - 1#8).toNat).toNat = s.pc.toNat + 2 ∧
      t.pc.toNat = (if r = 7 then s.reg 7 - 1#8 else s.reg r).toNat ∧
      RegsKeptBut 7 7 s t ∧ CellsKeptBut (s.reg 7 - 1#8).toNat s t ∧ OutKept s t ∧ ControlKept s t

/-- CALL where the return address fits no cell faults before any effect (44_control_transfer.md section 2; the spec's
decision D11, log entry 10). -/
def Obligations.CallReturnAddressMustFit : Prop :=
  ∀ (s : State) (a : Byte) (r : RegIdx), a.toNat = r.val → 255 < s.pc.toNat + 2 →
    exec (.call a) s = .next (s.raise (faultOf .outOfRangeAddress (s.pc.toNat + 2)))

/-- RET completes in every state: `pc` is the byte on top of the stack, the stack pointer rises by one modulo 256 (D2, log
entry 5); nothing else changes. -/
def Obligations.RetCompletes : Prop :=
  ∀ s : State, ∃ t, exec .ret s = .next t ∧ t.pc.toNat = (s.cell (s.reg 7).toNat).toNat ∧
    t.reg 7 = s.reg 7 + 1#8 ∧ RegsKeptBut 7 7 s t ∧ CellsKept s t ∧ OutKept s t ∧ ControlKept s t

/-! ### The ALU and memory -/

/-- The ALU's three operations, SUBTRACT among them (42_alu.md section 1; select codes: the spec's decision D17, log
entry 15): the exact integer result modulo 256, nothing else changed. -/
def Obligations.AluComputesModulo256 : Prop :=
  ∀ (s : State) (op : AluSelect) (d q : RegIdx), op ≠ 3#2 →
    ∃ t, s.alu op d q = .ok t ∧ t = { s with x := t.x } ∧ RegsKeptBut d d s t ∧
      ((t.reg d).toNat : Int) =
        (if op = 0#2 then ((s.reg d).toNat : Int) + (s.reg q).toNat
         else if op = 1#2 then ((s.reg d).toNat : Int) - (s.reg q).toNat
         else ((s.reg d).toNat : Int) * (s.reg q).toNat) % 256

/-- The ALU on the fourth select fails, and no state results (42_alu.md section 1; D17, log entry 15). -/
def Obligations.AluRejectsUnknownSelect : Prop :=
  ∀ (s : State) (d q : RegIdx), s.alu 3#2 d q = .error (faultOf .unsupportedALUOperation 3)

/-- R32 and R33: an access above 255 raises `OutOfRangeAddress`, never a wrap; a read gives the cell; a write puts the byte
in that cell, and changes no other cell and nothing else. -/
def Obligations.MemoryAccesses : Prop :=
  ∀ (s : State) (addr : Nat) (v : Byte), s.mem.wf = true →
    (255 < addr → s.memRead addr = .error (faultOf .outOfRangeAddress addr) ∧
      s.memWrite addr v = .error (faultOf .outOfRangeAddress addr)) ∧
    (addr ≤ 255 → s.memRead addr = .ok (s.cell addr) ∧
      ∃ t, s.memWrite addr v = .ok t ∧ t = { s with mem := t.mem } ∧ t.mem.wf = true ∧
        t.memRead addr = .ok v ∧ CellsKeptBut addr s t)

/-- A store is seen by the next fetch (20_memory.md section 11; the spec's decision D9, log entry 20): in whatever state
follows a PUSH with its memory, a fetch at the cell pushed to finds the byte pushed. -/
def Obligations.FetchSeesThePushedByte : Prop :=
  ∀ (s t u : State) (a : Byte) (r : RegIdx), s.mem.wf = true → a.toNat = r.val → exec (.push a) s = .next t →
    u.mem = t.mem → u.pc.toNat = (s.reg 7 - 1#8).toNat →
    u.fetchBytes.head? = some (if r = 7 then s.reg 7 - 1#8 else s.reg r)

/-! ### Rules of the whole machine -/

/-- Memory changes only by PUSH and CALL, and only in the cell below the stack pointer (20_memory.md section 2, 10_state.md
section 1). -/
def Obligations.OnlyPushAndCallStore : Prop :=
  ∀ (s t : State) (a : Nat), s.running = true → s.mem.wf = true → step s = .next t → t.cell a ≠ s.cell a →
    (s.cell s.pc.toNat = opcodes.push ∨ s.cell s.pc.toNat = opcodes.call) ∧ a = (s.reg 7 - 1#8).toNat

/-- A register changes only as the register table has it (10_state.md section 2): register 7 by the four stack
instructions, the register operand a names by the four that write it. -/
def Obligations.RegisterWritersOnly : Prop :=
  ∀ (s t : State) (q : RegIdx), s.running = true → step s = .next t → t.reg q ≠ s.reg q →
    let ir := s.cell s.pc.toNat
    (q = 7 ∧ (ir = opcodes.push ∨ ir = opcodes.pop ∨ ir = opcodes.call ∨ ir = opcodes.ret)) ∨
    ((s.cell (s.pc.toNat + 1)).toNat = q.val ∧
      (ir = opcodes.loadImmediate ∨ ir = opcodes.add ∨ ir = opcodes.multiply ∨ ir = opcodes.pop))

/-- The output stream is append-only (10_state.md section 7; its form is the spec's decision D13, log entry 14): a step
leaves it alone or, in PRINT_REGISTER, appends the one register named; over any number of steps the old stream is a
prefix of the new one. -/
def Obligations.OutputOnlyGrows : Prop :=
  (∀ s t : State, s.running = true → step s = .next t →
    t.out = s.out ∨ (s.cell s.pc.toNat = opcodes.printRegister ∧
      ∃ r : RegIdx, (s.cell (s.pc.toNat + 1)).toNat = r.val ∧ t.out = s.out ++ [s.reg r])) ∧
  ∀ (k : Nat) (s t : State), Sys2Proof.core.run k s = .next t → ∃ more, t.out = s.out ++ more

/-- LOAD_IMMEDIATE then PRINT_REGISTER on the same register emits exactly the loaded value (41_system_and_data.md,
95_test_vectors.md S2). -/
def Obligations.LoadThenPrintEmitsValue : Prop :=
  ∀ (s : State) (a imm : Byte), a.toNat ≤ 7 →
    ∃ t u, exec (.loadImmediate a imm) s = .next t ∧ exec (.printRegister a) t = .next u ∧ u.out = s.out ++ [imm]

/-- PUSH then POP on the same register, register 7 included, leaves every register as it was, the stack pointer among them
(43_stack.md section 3, 95_test_vectors.md S3). -/
def Obligations.PushThenPopRestores : Prop :=
  ∀ (s : State) (a : Byte), s.mem.wf = true → a.toNat ≤ 7 →
    ∃ t u, exec (.push a) s = .next t ∧ exec (.pop a) t = .next u ∧ RegsKept s u

/-- A RET that finds the stack pointer and the cell it addresses as CALL left them resumes two bytes after the CALL, with
the caller's stack pointer, whatever the subroutine did to the rest (44_control_transfer.md section 2,
95_test_vectors.md S4). -/
def Obligations.RetResumesAfterCall : Prop :=
  ∀ (s : State) (a : Byte) (r : RegIdx), s.mem.wf = true → a.toNat = r.val → s.pc.toNat + 2 ≤ 255 →
    ∃ t, exec (.call a) s = .next t ∧
      ∀ u : State, u.reg 7 = t.reg 7 → u.cell (t.reg 7).toNat = t.cell (t.reg 7).toNat →
        ∃ v, exec .ret u = .next v ∧ v.pc.toNat = s.pc.toNat + 2 ∧ v.reg 7 = s.reg 7

/-- N PUSHes in a row lower the stack pointer by exactly N modulo 256 (43_stack.md section 2, 95_test_vectors.md S6; the
wrap is D2, log entry 5), and change no other register. -/
def Obligations.PushesLowerStackPointer : Prop :=
  ∀ (regs : List Byte) (s : State), (∀ a ∈ regs, a.toNat ≤ 7) →
    ∃ t, execAll (regs.map .push) s = .next t ∧ t.reg 7 = s.reg 7 - BitVec.ofNat 8 regs.length ∧
      RegsKeptBut 7 7 s t

/-- Last in, first out (43_stack.md section 3, 95_test_vectors.md S6; up to 256 PUSHes cross 0x00, where the stack pointer
wraps: D2, log entry 5): after up to 256 PUSHes of registers other than the stack pointer, whatever happens to the
registers so long as the stack pointer and memory end up where the PUSHes left them, as many POPs in reverse order
restore every pushed register and the stack pointer. -/
def Obligations.PopsRestorePushedRegisters : Prop :=
  ∀ (regs : List Byte) (s : State), s.mem.wf = true → (∀ a ∈ regs, a.toNat ≤ 6) → regs.length ≤ 256 →
    ∃ t, execAll (regs.map .push) s = .next t ∧
      ∀ u : State, u.reg 7 = t.reg 7 → CellsKept t u →
        ∃ v, execAll (regs.reverse.map .pop) u = .next v ∧ v.reg 7 = s.reg 7 ∧
          ∀ (a : Byte) (r : RegIdx), a ∈ regs → a.toNat = r.val → v.reg r = s.reg r
end

