-- ==== Sys2Proof/Laws/Decode.lean ====
section
/-! SUPPORT. What the dispatcher's comparison can answer. -/

namespace Sys2Proof

/-- A byte the comparison selects is that opcode's value. -/
theorem value_of_classify {m : OpcodeMap} {op : Byte} {o : Opcode} (h : classify m op = some o) : op = m.value o := by
  unfold classify at h
  repeat' split at h
  all_goals first
    | (injection h with h; subst h; assumption)
    | cases h

/-- A byte the comparison does not select is no opcode's value. -/
theorem ne_value_of_classify {m : OpcodeMap} {op : Byte} (h : classify m op = none) (o : Opcode) : op ≠ m.value o := by
  unfold classify at h
  repeat' split at h
  all_goals first
    | (cases o <;> assumption)
    | cases h

/-- Where the values are distinct, an opcode's value selects it. -/
theorem classify_value {m : OpcodeMap} (hm : m.Admissible) (o : Opcode) : classify m (m.value o) = some o := by
  cases h : classify m (m.value o) with
  | none => exact absurd rfl (ne_value_of_classify h o)
  | some o' => exact congrArg some (hm.1 _ _ (value_of_classify h)).symm

end Sys2Proof
end

