-- ==== Sys2Proof/Laws/Memory.lean ====
section
/-! SUPPORT. The laws of memory: every operation keeps the canonical form, a write is read back, other cells stay. -/

namespace Sys2Proof.Machine

/-- The canonical form from an address on also holds from a lower one. -/
theorem Memory.wfFrom_mono {m : Memory} {lo lo' : Nat} (h : lo' ≤ lo) (hm : Memory.wfFrom lo m = true) :
    Memory.wfFrom lo' m = true := by
  cases m with
  | nil => rfl
  | cons c rest =>
    simp only [Memory.wfFrom, Bool.and_eq_true, decide_eq_true_eq] at hm ⊢
    exact ⟨⟨⟨by omega, hm.1.1.2⟩, hm.1.2⟩, hm.2⟩

/-- A cell below the first listed address is zero. -/
theorem Memory.read_below {m : Memory} {lo a : Nat} (ha : a < lo) (hm : Memory.wfFrom lo m = true) :
    m.read a = 0#8 := by
  induction m generalizing lo with
  | nil => rfl
  | cons c rest ih =>
    simp only [Memory.wfFrom, Bool.and_eq_true, decide_eq_true_eq] at hm
    have hne : a ≠ c.1 := by omega
    simp only [Memory.read, hne, if_false]
    exact ih (by omega) hm.2

/-- A canonical memory holds zero outside the address space. -/
theorem Memory.read_beyond {m : Memory} {lo a : Nat} (ha : Config.memCells ≤ a) (hm : Memory.wfFrom lo m = true) :
    m.read a = 0#8 := by
  induction m generalizing lo with
  | nil => rfl
  | cons c rest ih =>
    simp only [Memory.wfFrom, Bool.and_eq_true, decide_eq_true_eq] at hm
    have hne : a ≠ c.1 := by omega
    simp only [Memory.read, hne, if_false]
    exact ih hm.2

/-- A write in the address space keeps the canonical form, from any address up to the one written. -/
theorem Memory.write_wfFrom {m : Memory} {lo a : Nat} {v : Byte} (hlo : lo ≤ a) (ha : a < Config.memCells)
    (hm : Memory.wfFrom lo m = true) : Memory.wfFrom lo (m.write a v) = true := by
  induction m generalizing lo with
  | nil => by_cases hv : v = 0#8 <;> simp [Memory.write, Memory.wfFrom, hv, hlo, ha]
  | cons c rest ih =>
    obtain ⟨b, w⟩ := c
    simp only [Memory.wfFrom, Bool.and_eq_true, decide_eq_true_eq] at hm
    obtain ⟨⟨⟨h1, h2⟩, h3⟩, h4⟩ := hm
    simp only [Memory.write]
    split
    · next hab =>
      split
      · simp [Memory.wfFrom, h1, h2, h3, h4]
      · next hv => simp [Memory.wfFrom, hv, hlo, ha, h2, h3, h4, Nat.succ_le_of_lt hab]
    · split
      · next hab hab' =>
        split
        · exact Memory.wfFrom_mono (by omega) h4
        · next hv => subst hab'; simp [Memory.wfFrom, hv, hlo, ha, h4]
      · next hab hab' =>
        simp only [Memory.wfFrom, Bool.and_eq_true, decide_eq_true_eq]
        exact ⟨⟨⟨h1, h2⟩, h3⟩, ih (by omega) h4⟩

/-- A write in the address space keeps the canonical form. -/
theorem Memory.write_wf {m : Memory} {a : Nat} {v : Byte} (ha : a < Config.memCells) (hm : m.wf = true) :
    (m.write a v).wf = true := Memory.write_wfFrom (Nat.zero_le a) ha hm

/-- Reading any cell after a write to a canonical memory. -/
theorem Memory.read_write_from {m : Memory} {lo : Nat} (a b : Nat) (v : Byte) (hm : Memory.wfFrom lo m = true) :
    (m.write a v).read b = if b = a then v else m.read b := by
  induction m generalizing lo with
  | nil =>
    by_cases hv : v = 0#8 <;> by_cases hb : b = a <;> simp [Memory.write, Memory.read, hv, hb]
  | cons c rest ih =>
    obtain ⟨d, w⟩ := c
    have hall := hm
    simp only [Memory.wfFrom, Bool.and_eq_true, decide_eq_true_eq] at hm
    obtain ⟨⟨⟨h1, h2⟩, h3⟩, h4⟩ := hm
    simp only [Memory.write]
    split
    · next had =>
      have hz : Memory.read ((d, w) :: rest) a = 0#8 :=
        Memory.read_below (lo := d) had (by simp [Memory.wfFrom, h2, h3, h4])
      split
      · next hv => by_cases hb : b = a <;> simp_all
      · rfl
    · split
      · next had hda =>
        have hz : Memory.read rest a = 0#8 := Memory.read_below (lo := d + 1) (by omega) h4
        split
        · next hv =>
          subst hda
          by_cases hb : b = a <;> simp [Memory.read, hb, hz, hv]
        · subst hda
          by_cases hb : b = a <;> simp [Memory.read, hb]
      · next had hda =>
        simp only [Memory.read, ih h4]
        by_cases hb : b = d
        · subst hb
          have hne : b ≠ a := fun h => hda h.symm
          simp [hne]
        · simp [hb]

/-- Reading any cell after a write. -/
theorem Memory.read_write {m : Memory} (a b : Nat) (v : Byte) (hm : m.wf = true) :
    (m.write a v).read b = if b = a then v else m.read b := Memory.read_write_from a b v hm

/-- Storing bytes keeps the canonical form; bytes past the last cell are dropped. -/
theorem Memory.store_wf {m : Memory} {a : Nat} {vs : List Byte} (hm : m.wf = true) : (m.store a vs).wf = true := by
  induction vs generalizing m a with
  | nil => exact hm
  | cons v rest ih =>
    simp only [Memory.store]
    split
    · next h => exact ih (Memory.write_wf h hm)
    · exact ih hm

/-- Reading any cell after storing bytes: the byte stored there, if one was, else the old value. -/
theorem Memory.read_store {m : Memory} (a b : Nat) (vs : List Byte) (hm : m.wf = true) :
    (m.store a vs).read b =
      if a ≤ b ∧ b < Config.memCells then vs.getD (b - a) (m.read b) else m.read b := by
  induction vs generalizing m a with
  | nil => simp [Memory.store]
  | cons v rest ih =>
    have hm' : (if a < Config.memCells then m.write a v else m).wf = true := by
      split
      · next h => exact Memory.write_wf h hm
      · exact hm
    rw [Memory.store, ih (a + 1) hm']
    have hr : (if a < Config.memCells then m.write a v else m).read b
        = if a < Config.memCells ∧ b = a then v else m.read b := by
      by_cases h : a < Config.memCells <;> simp [h, Memory.read_write a b v hm]
    rw [hr]
    by_cases hb : b < Config.memCells
    · rcases Nat.lt_trichotomy b a with h | h | h
      · have e1 : ¬ a + 1 ≤ b := by omega
        have e2 : ¬ a ≤ b := by omega
        have e3 : b ≠ a := by omega
        simp [e1, e2, e3]
      · subst h
        simp [hb]
      · have e1 : a + 1 ≤ b := h
        have e2 : a ≤ b := by omega
        have e3 : b ≠ a := by omega
        have e4 : b - a = (b - (a + 1)) + 1 := by omega
        simp [hb, e1, e2, e3, e4]
    · have : ¬ (a < Config.memCells ∧ b = a) := by omega
      simp [hb, this]

/-- The memory of reset is canonical. -/
theorem State.reset_mem_wf : State.reset.mem.wf = true := rfl

end Sys2Proof.Machine
end

