-- ==== Sys2Proof/Laws/State.lean ====
section
/-! SUPPORT. What each update of the state does to each field and each view of it: one lemma each, by rfl. -/

namespace Sys2Proof.Machine

/-! ### `setReg` -/

@[simp] theorem State.setReg_x (s : State) (r : RegIdx) (v : Byte) : (s.setReg r v).x = s.x.set r.val v := rfl

@[simp] theorem State.setReg_pc (s : State) (r : RegIdx) (v : Byte) : (s.setReg r v).pc = s.pc := rfl

@[simp] theorem State.setReg_running (s : State) (r : RegIdx) (v : Byte) : (s.setReg r v).running = s.running := rfl

@[simp] theorem State.setReg_fault (s : State) (r : RegIdx) (v : Byte) : (s.setReg r v).fault = s.fault := rfl

@[simp] theorem State.setReg_mem (s : State) (r : RegIdx) (v : Byte) : (s.setReg r v).mem = s.mem := rfl

@[simp] theorem State.setReg_out (s : State) (r : RegIdx) (v : Byte) : (s.setReg r v).out = s.out := rfl

@[simp] theorem State.setReg_cell (s : State) (r : RegIdx) (v : Byte) (a : Nat) : (s.setReg r v).cell a = s.cell a := rfl

/-! ### `decSp` -/

@[simp] theorem State.decSp_x (s : State) : s.decSp.x = s.x.set Config.spIndex.val (s.sp - 1#8) := rfl

@[simp] theorem State.decSp_pc (s : State) : s.decSp.pc = s.pc := rfl

@[simp] theorem State.decSp_running (s : State) : s.decSp.running = s.running := rfl

@[simp] theorem State.decSp_fault (s : State) : s.decSp.fault = s.fault := rfl

@[simp] theorem State.decSp_mem (s : State) : s.decSp.mem = s.mem := rfl

@[simp] theorem State.decSp_out (s : State) : s.decSp.out = s.out := rfl

@[simp] theorem State.decSp_cell (s : State) (a : Nat) : s.decSp.cell a = s.cell a := rfl

/-! ### `incSp` -/

@[simp] theorem State.incSp_x (s : State) : s.incSp.x = s.x.set Config.spIndex.val (s.sp + 1#8) := rfl

@[simp] theorem State.incSp_pc (s : State) : s.incSp.pc = s.pc := rfl

@[simp] theorem State.incSp_running (s : State) : s.incSp.running = s.running := rfl

@[simp] theorem State.incSp_fault (s : State) : s.incSp.fault = s.fault := rfl

@[simp] theorem State.incSp_mem (s : State) : s.incSp.mem = s.mem := rfl

@[simp] theorem State.incSp_out (s : State) : s.incSp.out = s.out := rfl

@[simp] theorem State.incSp_cell (s : State) (a : Nat) : s.incSp.cell a = s.cell a := rfl

/-! ### `advance` -/

@[simp] theorem State.advance_x (s : State) (op : Byte) : (s.advance op).x = s.x := rfl

@[simp] theorem State.advance_pc (s : State) (op : Byte) : (s.advance op).pc = s.pc + BitVec.ofNat 9 (1 + operandCount op) := rfl

@[simp] theorem State.advance_running (s : State) (op : Byte) : (s.advance op).running = s.running := rfl

@[simp] theorem State.advance_fault (s : State) (op : Byte) : (s.advance op).fault = s.fault := rfl

@[simp] theorem State.advance_mem (s : State) (op : Byte) : (s.advance op).mem = s.mem := rfl

@[simp] theorem State.advance_out (s : State) (op : Byte) : (s.advance op).out = s.out := rfl

@[simp] theorem State.advance_reg (s : State) (op : Byte) (q : RegIdx) : (s.advance op).reg q = s.reg q := rfl

@[simp] theorem State.advance_sp (s : State) (op : Byte) : (s.advance op).sp = s.sp := rfl

@[simp] theorem State.advance_cell (s : State) (op : Byte) (a : Nat) : (s.advance op).cell a = s.cell a := rfl

/-! ### `jump` -/

@[simp] theorem State.jump_x (s : State) (target : Byte) : (s.jump target).x = s.x := rfl

@[simp] theorem State.jump_pc (s : State) (target : Byte) : (s.jump target).pc = target.setWidth 9 := rfl

@[simp] theorem State.jump_running (s : State) (target : Byte) : (s.jump target).running = s.running := rfl

@[simp] theorem State.jump_fault (s : State) (target : Byte) : (s.jump target).fault = s.fault := rfl

@[simp] theorem State.jump_mem (s : State) (target : Byte) : (s.jump target).mem = s.mem := rfl

@[simp] theorem State.jump_out (s : State) (target : Byte) : (s.jump target).out = s.out := rfl

@[simp] theorem State.jump_reg (s : State) (target : Byte) (q : RegIdx) : (s.jump target).reg q = s.reg q := rfl

@[simp] theorem State.jump_sp (s : State) (target : Byte) : (s.jump target).sp = s.sp := rfl

@[simp] theorem State.jump_cell (s : State) (target : Byte) (a : Nat) : (s.jump target).cell a = s.cell a := rfl

/-! ### `emit` -/

@[simp] theorem State.emit_x (s : State) (v : Byte) : (s.emit v).x = s.x := rfl

@[simp] theorem State.emit_pc (s : State) (v : Byte) : (s.emit v).pc = s.pc := rfl

@[simp] theorem State.emit_running (s : State) (v : Byte) : (s.emit v).running = s.running := rfl

@[simp] theorem State.emit_fault (s : State) (v : Byte) : (s.emit v).fault = s.fault := rfl

@[simp] theorem State.emit_mem (s : State) (v : Byte) : (s.emit v).mem = s.mem := rfl

@[simp] theorem State.emit_out (s : State) (v : Byte) : (s.emit v).out = s.out ++ [v] := rfl

@[simp] theorem State.emit_reg (s : State) (v : Byte) (q : RegIdx) : (s.emit v).reg q = s.reg q := rfl

@[simp] theorem State.emit_sp (s : State) (v : Byte) : (s.emit v).sp = s.sp := rfl

@[simp] theorem State.emit_cell (s : State) (v : Byte) (a : Nat) : (s.emit v).cell a = s.cell a := rfl

/-! ### `stop` -/

@[simp] theorem State.stop_x (s : State) : s.stop.x = s.x := rfl

@[simp] theorem State.stop_pc (s : State) : s.stop.pc = s.pc := rfl

@[simp] theorem State.stop_running (s : State) : s.stop.running = false := rfl

@[simp] theorem State.stop_fault (s : State) : s.stop.fault = s.fault := rfl

@[simp] theorem State.stop_mem (s : State) : s.stop.mem = s.mem := rfl

@[simp] theorem State.stop_out (s : State) : s.stop.out = s.out := rfl

@[simp] theorem State.stop_reg (s : State) (q : RegIdx) : s.stop.reg q = s.reg q := rfl

@[simp] theorem State.stop_sp (s : State) : s.stop.sp = s.sp := rfl

@[simp] theorem State.stop_cell (s : State) (a : Nat) : s.stop.cell a = s.cell a := rfl

/-! ### `raise` -/

@[simp] theorem State.raise_x (s : State) (f : FaultRecord) : (s.raise f).x = s.x := rfl

@[simp] theorem State.raise_pc (s : State) (f : FaultRecord) : (s.raise f).pc = s.pc := rfl

@[simp] theorem State.raise_running (s : State) (f : FaultRecord) : (s.raise f).running = false := rfl

@[simp] theorem State.raise_fault (s : State) (f : FaultRecord) : (s.raise f).fault = some f := rfl

@[simp] theorem State.raise_mem (s : State) (f : FaultRecord) : (s.raise f).mem = s.mem := rfl

@[simp] theorem State.raise_out (s : State) (f : FaultRecord) : (s.raise f).out = s.out := rfl

@[simp] theorem State.raise_reg (s : State) (f : FaultRecord) (q : RegIdx) : (s.raise f).reg q = s.reg q := rfl

@[simp] theorem State.raise_sp (s : State) (f : FaultRecord) : (s.raise f).sp = s.sp := rfl

@[simp] theorem State.raise_cell (s : State) (f : FaultRecord) (a : Nat) : (s.raise f).cell a = s.cell a := rfl

/-! ### A new memory -/

@[simp] theorem State.withMem_reg (s : State) (m : Memory) (q : RegIdx) :
    ({ s with mem := m } : State).reg q = s.reg q := rfl

@[simp] theorem State.withMem_sp (s : State) (m : Memory) : ({ s with mem := m } : State).sp = s.sp := rfl

@[simp] theorem State.withMem_cell (s : State) (m : Memory) (a : Nat) :
    ({ s with mem := m } : State).cell a = m.read a := rfl

/-! ### The register views of a register write -/

/-- Reading a register after a write of register `r`. -/
theorem State.setReg_reg (s : State) (r q : RegIdx) (v : Byte) :
    (s.setReg r v).reg q = if r = q then v else s.reg q := by
  simp only [State.reg, State.setReg, Vector.getElem_set, Fin.ext_iff]

@[simp] theorem State.setReg_reg_self (s : State) (r : RegIdx) (v : Byte) : (s.setReg r v).reg r = v := by
  simp [State.setReg_reg]

/-- The stack pointer after a write of register `r`. -/
theorem State.setReg_sp (s : State) (r : RegIdx) (v : Byte) :
    (s.setReg r v).sp = if r = Config.spIndex then v else s.sp := State.setReg_reg s r Config.spIndex v

@[simp] theorem State.decSp_sp (s : State) : s.decSp.sp = s.sp - 1#8 := State.setReg_reg_self s Config.spIndex _

@[simp] theorem State.incSp_sp (s : State) : s.incSp.sp = s.sp + 1#8 := State.setReg_reg_self s Config.spIndex _

/-- Every register after the fall of the stack pointer. -/
theorem State.decSp_reg (s : State) (q : RegIdx) :
    s.decSp.reg q = if Config.spIndex = q then s.sp - 1#8 else s.reg q := State.setReg_reg s _ q _

/-- Every register after the rise of the stack pointer. -/
theorem State.incSp_reg (s : State) (q : RegIdx) :
    s.incSp.reg q = if Config.spIndex = q then s.sp + 1#8 else s.reg q := State.setReg_reg s _ q _

/-- Two states are equal when their fields are, the registers one by one. -/
theorem State.eq_of_reg {s t : State} (hx : ∀ q, t.reg q = s.reg q) (hpc : t.pc = s.pc)
    (hr : t.running = s.running) (hf : t.fault = s.fault) (hm : t.mem = s.mem) (ho : t.out = s.out) : t = s := by
  obtain ⟨x, pc, r, f, m, o⟩ := s
  obtain ⟨x', pc', r', f', m', o'⟩ := t
  have : x' = x := Vector.ext fun i hi => hx ⟨i, hi⟩
  simp_all

end Sys2Proof.Machine
end

