-- ==== Sys2Proof/Laws/Ops.lean ====
section
/-! SUPPORT. One lemma for each shared operation that says everything it can do. -/

namespace Sys2Proof.Machine

/-! ### Checks and faults -/

/-- A passed check goes on with its value. -/
theorem State.orFault_ok {α : Type} (s : State) (v : α) (k : α → Host.Outcome State Fault Refusal) :
    s.orFault (.ok v) k = k v := rfl

/-- A failed check ends the step in fault entry on the state it was made for. -/
theorem State.orFault_error {α : Type} (s : State) (f : FaultRecord) (k : α → Host.Outcome State Fault Refusal) :
    s.orFault (.error f) k = .next (s.raise f) := rfl

/-- What a check can do. -/
theorem State.orFault_cases {α : Type} {s : State} {c : Except FaultRecord α}
    {k : α → Host.Outcome State Fault Refusal} {t : State} (h : s.orFault c k = .next t) :
    (∃ v, c = .ok v ∧ k v = .next t) ∨ ∃ f, c = .error f ∧ t = s.raise f := by
  cases c with
  | ok v => exact .inl ⟨v, rfl, h⟩
  | error f =>
    rw [State.orFault_error] at h
    injection h with h
    exact .inr ⟨f, rfl, h.symm⟩

/-! ### Operands -/

/-- A byte that is a register number names that register. -/
theorem regIndex_of_eq {b : Byte} {r : RegIdx} (h : b.toNat = r.val) : regIndex b = .ok r := by
  have hb : b.toNat < 8 := by omega
  simp only [regIndex, hb, dif_pos]
  exact congrArg Except.ok (Fin.ext h)

/-- A byte above 7 raises `OutOfRangeRegister`. -/
theorem regIndex_of_gt {b : Byte} (h : 7 < b.toNat) : regIndex b = .error (outOfRangeRegister b) := by
  have hb : ¬ b.toNat < 8 := by omega
  simp only [regIndex, hb, dif_neg, not_false_iff]

/-- What reading a register number can do. -/
theorem regIndex_cases (b : Byte) :
    (∃ r : RegIdx, b.toNat = r.val ∧ regIndex b = .ok r) ∨
      (7 < b.toNat ∧ regIndex b = .error (outOfRangeRegister b)) := by
  by_cases h : b.toNat < 8
  · exact .inl ⟨⟨b.toNat, h⟩, rfl, regIndex_of_eq rfl⟩
  · exact .inr ⟨by omega, regIndex_of_gt (by omega)⟩

/-- A return address that fits a cell. -/
theorem returnAddress_of_le {s : State} (h : s.pc.toNat + 2 ≤ 255) :
    returnAddress s = .ok (BitVec.ofNat 8 (s.pc.toNat + 2)) := by
  have hb : s.pc.toNat + 2 < Config.memCells := by simp only [Config.memCells]; omega
  simp only [returnAddress, hb, if_true]

/-- A return address that does not. -/
theorem returnAddress_of_gt {s : State} (h : 255 < s.pc.toNat + 2) :
    returnAddress s = .error (outOfRangeAddress (s.pc.toNat + 2)) := by
  have hb : ¬ s.pc.toNat + 2 < Config.memCells := by simp only [Config.memCells]; omega
  simp only [returnAddress, hb, if_false]

/-! ### Memory accesses at an 8-bit address -/

/-- A read at an 8-bit address never faults (R45). -/
theorem State.memRead_byte (s : State) (b : Byte) : s.memRead b.toNat = .ok (s.cell b.toNat) := by
  have hb : b.toNat < Config.memCells := b.isLt
  simp only [State.memRead, hb, if_true]

/-- A write at an 8-bit address never faults (R45). -/
theorem State.memWrite_byte (s : State) (b v : Byte) :
    s.memWrite b.toNat v = .ok { s with mem := s.mem.write b.toNat v } := by
  have hb : b.toNat < Config.memCells := b.isLt
  simp only [State.memWrite, hb, if_true]

/-! ### The ALU -/

/-- The ALU at its ADD select. -/
theorem State.alu_add (s : State) (d q : RegIdx) : s.alu aluAdd d q = .ok (s.setReg d (s.reg d + s.reg q)) := rfl

/-- The ALU at its SUBTRACT select. -/
theorem State.alu_subtract (s : State) (d q : RegIdx) :
    s.alu aluSubtract d q = .ok (s.setReg d (s.reg d - s.reg q)) := rfl

/-- The ALU at its MULTIPLY select. -/
theorem State.alu_multiply (s : State) (d q : RegIdx) :
    s.alu aluMultiply d q = .ok (s.setReg d (s.reg d * s.reg q)) := rfl

/-! ### The step -/

/-- While running, a step is fetch, then the instruction or the fault. -/
theorem step_running {s : State} (h : s.running = true) : step s = s.orFault s.fetch fun i => exec i s := by
  simp only [step, h, if_true]

/-- While stopped, a step changes nothing. -/
theorem step_stopped {s : State} (h : s.running = false) : step s = .next s := by
  simp only [step, h]
  rfl

/-- The next states of one instruction of the ALU. -/
theorem State.aluInstr_cases {s t : State} {op : AluSelect} {opcode a b : Byte}
    (h : s.aluInstr op opcode a b = .next t) :
    (∃ d q : RegIdx, a.toNat = d.val ∧ b.toNat = q.val ∧ ∃ u, s.alu op d q = .ok u ∧ t = u.advance opcode) ∨
      (∃ f, t = s.raise f) := by
  rcases State.orFault_cases h with ⟨d, hd, h⟩ | ⟨f, -, h⟩
  · rcases State.orFault_cases h with ⟨q, hq, h⟩ | ⟨f, -, h⟩
    · rcases State.orFault_cases h with ⟨u, hu, h⟩ | ⟨f, -, h⟩
      · have ht : t = u.advance opcode := (Host.Outcome.next.inj h).symm
        rcases regIndex_cases a with ⟨d', ha, ha'⟩ | ⟨-, ha'⟩
        · rcases regIndex_cases b with ⟨q', hb, hb'⟩ | ⟨-, hb'⟩
          · rw [ha'] at hd
            rw [hb'] at hq
            injection hd with hd
            injection hq with hq
            subst hd hq
            exact .inl ⟨d', q', ha, hb, u, hu, ht⟩
          · rw [hb'] at hq; cases hq
        · rw [ha'] at hd; cases hd
      · exact .inr ⟨f, h⟩
    · exact .inr ⟨f, h⟩
  · exact .inr ⟨f, h⟩

end Sys2Proof.Machine
end

