-- ==== Sys2Proof/Laws/Fetch.lean ====
section
/-! SUPPORT. What fetch finds at each distance from the end of memory, and for each opcode. -/

namespace Sys2Proof.Machine

/-- Past the last cell there is nothing to fetch. -/
theorem State.fetchBytes_beyond {s : State} (h : 255 < s.pc.toNat) : s.fetchBytes = [] := by
  have h0 : ¬ s.pc.toNat < Config.memCells := by simp only [Config.memCells]; omega
  simp [State.fetchBytes, State.bytesFrom, h0]

/-- At the last cell there is one byte. -/
theorem State.fetchBytes_last {s : State} (h : s.pc.toNat = 255) : s.fetchBytes = [s.cell 255] := by
  simp [State.fetchBytes, State.bytesFrom, h, Config.memCells]

/-- At the last cell but one there are two bytes. -/
theorem State.fetchBytes_last_but_one {s : State} (h : s.pc.toNat = 254) :
    s.fetchBytes = [s.cell 254, s.cell 255] := by
  simp [State.fetchBytes, State.bytesFrom, h, Config.memCells]

/-- Elsewhere there are three. -/
theorem State.fetchBytes_inside {s : State} (h : s.pc.toNat ≤ 253) :
    s.fetchBytes = [s.cell s.pc.toNat, s.cell (s.pc.toNat + 1), s.cell (s.pc.toNat + 2)] := by
  have h0 : s.pc.toNat < Config.memCells := by simp only [Config.memCells]; omega
  have h1 : s.pc.toNat + 1 < Config.memCells := by simp only [Config.memCells]; omega
  have h2 : s.pc.toNat + 1 + 1 < Config.memCells := by simp only [Config.memCells]; omega
  simp [State.fetchBytes, State.bytesFrom, h0, h1, h2]

/-- Fetch inside memory: the dispatcher's comparison of the cell at `pc`, then the operand bytes. -/
theorem State.fetch_of_le {s : State} (h : s.pc.toNat ≤ 255) :
    s.fetch = match classify opcodes (s.cell s.pc.toNat) with
      | none => .error (illegalInstruction (s.cell s.pc.toNat))
      | some o => match operandsOf o s.fetchBytes.tail with
        | .ok (i, _) => .ok i
        | .error e => .error (s.decodeFault e) := by
  have hcons : s.fetchBytes = s.cell s.pc.toNat :: s.fetchBytes.tail := by
    have h0 : s.pc.toNat < Config.memCells := by simp only [Config.memCells]; omega
    simp [State.fetchBytes, State.bytesFrom, h0]
  unfold State.fetch decode
  rw [hcons]
  simp only [decodeWith, List.tail_cons]
  cases classify opcodes (s.cell s.pc.toNat) with
  | none => rfl
  | some o => rfl

/-- The bytes after the opcode, by the distance to the end of memory. -/
theorem State.fetchBytes_tail (s : State) (h : s.pc.toNat ≤ 255) :
    s.fetchBytes.tail =
      if s.pc.toNat = 255 then []
      else if s.pc.toNat = 254 then [s.cell (s.pc.toNat + 1)]
      else [s.cell (s.pc.toNat + 1), s.cell (s.pc.toNat + 2)] := by
  split
  · next h5 => rw [State.fetchBytes_last h5]; rfl
  · split
    · next h4 => rw [State.fetchBytes_last_but_one h4, h4]; rfl
    · next h5 h4 => rw [State.fetchBytes_inside (by omega)]; rfl

end Sys2Proof.Machine
end

