-- ==== Sys2Proof/Laws/PerInstr.lean ====
section
/-! SUPPORT. Statements about every instruction as syntax, one lemma a constructor. -/

namespace Sys2Proof

/-- The encoding of an instruction has one to three bytes, the count its first byte's top two bits give (R50, R58). -/
def Laws.EncodedLength.Statement (i : Instr) : Prop :=
  ∃ op rest, encode i = op :: rest ∧ (encode i).length = 1 + operandCount op ∧ operandCount op ≤ 2

namespace Laws.EncodedLength

theorem halt : Statement .halt := ⟨_, _, rfl, rfl, by decide⟩

theorem loadImmediate (a imm : Byte) : Statement (.loadImmediate a imm) := ⟨_, _, rfl, rfl, by decide⟩

theorem printRegister (a : Byte) : Statement (.printRegister a) := ⟨_, _, rfl, rfl, by decide⟩

theorem add (a b : Byte) : Statement (.add a b) := ⟨_, _, rfl, rfl, by decide⟩

theorem multiply (a b : Byte) : Statement (.multiply a b) := ⟨_, _, rfl, rfl, by decide⟩

theorem push (a : Byte) : Statement (.push a) := ⟨_, _, rfl, rfl, by decide⟩

theorem pop (a : Byte) : Statement (.pop a) := ⟨_, _, rfl, rfl, by decide⟩

theorem call (a : Byte) : Statement (.call a) := ⟨_, _, rfl, rfl, by decide⟩

theorem ret : Statement .ret := ⟨_, _, rfl, rfl, by decide⟩

end Laws.EncodedLength

end Sys2Proof
end

