-- ==== Sys2Proof/Laws/Pseudocode.lean ====
section
/-! SUPPORT. The pseudocode's primitives in terms of the model's operations. -/

namespace Sys2Proof.Machine

/-- The pseudocode's register read at a register number's byte. -/
theorem State.xAt_of_eq {s : State} {b : Byte} {r : RegIdx} (h : b.toNat = r.val) : s.xAt b.toNat = s.reg r := by
  simp only [State.xAt]
  congr 1
  apply Fin.ext
  simp [Fin.ofNat, h]

/-- The pseudocode's read of register 7 is the stack pointer. -/
theorem State.xAt_seven (s : State) : s.xAt 7 = s.sp := rfl

/-- The pseudocode's register write at a register number's byte. -/
theorem State.setX_of_eq {s : State} {b : Byte} {r : RegIdx} (h : b.toNat = r.val) (v : Nat) :
    s.setX b.toNat v = s.setReg r (BitVec.ofNat 8 v) := by
  have hr : Fin.ofNat 8 b.toNat = r := by
    apply Fin.ext
    simp [Fin.ofNat, h]
  simp only [State.setX, hr]
  congr 1
  apply BitVec.eq_of_toNat_eq
  simp

/-- The pseudocode's decrement of register 7. -/
theorem State.setX_seven_dec (s : State) : s.setX 7 (s.sp.toNat + 255) = s.decSp := by
  have hv : BitVec.ofNat 8 ((s.sp.toNat + 255) % 256) = s.sp - 1#8 := by
    apply BitVec.eq_of_toNat_eq
    simp [BitVec.toNat_sub, Nat.add_comm]
  simp only [State.setX, State.decSp, hv]
  rfl

/-- The pseudocode's increment of register 7. -/
theorem State.setX_seven_inc (s : State) : s.setX 7 (s.sp.toNat + 1) = s.incSp := by
  have hv : BitVec.ofNat 8 ((s.sp.toNat + 1) % 256) = s.sp + 1#8 := by
    apply BitVec.eq_of_toNat_eq
    simp
  simp only [State.setX, State.incSp, hv]
  rfl

/-- The pseudocode's store. -/
theorem State.setCell_eq (s : State) (a v : Nat) :
    s.setCell a v = { s with mem := s.mem.write a (BitVec.ofNat 8 v) } := by
  have hv : BitVec.ofNat 8 (v % 256) = BitVec.ofNat 8 v := by
    apply BitVec.eq_of_toNat_eq
    simp
  simp only [State.setCell, hv]

/-- The generic advance as the pseudocode writes it. -/
theorem State.advance_eq (s : State) (op : Byte) : s.advance op = s.setPc (s.pc.toNat + (1 + operandCount op)) := by
  simp only [State.advance, State.setPc]
  congr 1
  apply BitVec.eq_of_toNat_eq
  simp

/-- A jump as the pseudocode writes it. -/
theorem State.jump_eq (s : State) (b : Byte) : s.jump b = s.setPc b.toNat := by
  simp only [State.jump, State.setPc, BitVec.ofNat_toNat]

end Sys2Proof.Machine
end

