-- ==== Sys2Proof/Tests/Slice0.lean ====
section
/-! SUPPORT. Tests: expected values from the spec's own vectors (95_test_vectors.md, V-* and S*) or its encoding table; and, for every statement with hypotheses, a witness that meets them. -/

namespace Sys2Proof.Tests

open Sys2Proof Sys2Proof.Machine

/-! ### Small states -/

/-- The reset state with `pc` at an address and bytes stored from there on. -/
def at_ (pc : Nat) (bytes : List Byte) : State :=
  { State.reset with pc := BitVec.ofNat 9 pc, mem := Memory.store [] pc bytes }

/-- The same with one more cell set. -/
def State.poke (s : State) (a : Nat) (v : Byte) : State := { s with mem := s.mem.write a v }

/-- The state after one step; the state itself where there were none. -/
def after (s : State) : State :=
  match step s with
  | .next t => t
  | .fault _ => s
  | .refused _ => s

/-! ### WellFormed refuses an ill-formed term of each check -/

theorem test_wellFormed_smoke :
    (Instr.loadImmediate 8#8 0#8).wellFormed = false ∧ (Instr.printRegister 8#8).wellFormed = false ∧
    (Instr.add 8#8 0#8).wellFormed = false ∧ (Instr.add 0#8 8#8).wellFormed = false ∧
    (Instr.multiply 255#8 0#8).wellFormed = false ∧ (Instr.multiply 0#8 255#8).wellFormed = false ∧
    (Instr.push 8#8).wellFormed = false ∧ (Instr.pop 16#8).wellFormed = false ∧
    (Instr.call 128#8).wellFormed = false ∧
    (Instr.loadImmediate 7#8 255#8).wellFormed = true := by decide

/-! ### Decoding: each row's word written out bit by bit from R55 -/

theorem test_decode_halt : decode [0b00000001#8] = .ok (.halt, []) := by rfl
theorem test_decode_loadImmediate :
    decode [0b10000010#8, 0b00000011#8, 0b11111111#8] = .ok (.loadImmediate 3#8 255#8, []) := by rfl
theorem test_decode_printRegister : decode [0b01000111#8, 0b00000111#8] = .ok (.printRegister 7#8, []) := by rfl
theorem test_decode_add :
    decode [0b10100000#8, 0b00000001#8, 0b00000010#8] = .ok (.add 1#8 2#8, []) := by rfl
theorem test_decode_multiply :
    decode [0b10100010#8, 0b00000001#8, 0b00000010#8] = .ok (.multiply 1#8 2#8, []) := by rfl
theorem test_decode_push : decode [0b01000101#8, 0b00000100#8] = .ok (.push 4#8, []) := by rfl
theorem test_decode_pop : decode [0b01000110#8, 0b00000100#8] = .ok (.pop 4#8, []) := by rfl
theorem test_decode_call : decode [0b01010000#8, 0b00000001#8] = .ok (.call 1#8, []) := by rfl
theorem test_decode_ret : decode [0b00010001#8, 0b10101010#8] = .ok (.ret, [0b10101010#8]) := by rfl

/-- "Of the 256 byte values exactly nine decode" (95_test_vectors.md section 2.8). -/
theorem test_exactly_nine_opcodes :
    (List.range 256).filter (fun n => (classify opcodes (BitVec.ofNat 8 n)).isSome) =
      [0x01, 0x11, 0x45, 0x46, 0x47, 0x50, 0x82, 0xA0, 0xA2] := by decide

/-! ### One step of each instruction -/

/-- V-H1. -/
theorem test_halt : (after (at_ 0x10 [0x01#8])).running = false ∧ (after (at_ 0x10 [0x01#8])).pc = 0x10#9 := by decide

/-- V-H2. -/
theorem test_halt_last_cell :
    (after (at_ 0xFF [0x01#8])).pc = 0xFF#9 ∧ (after (at_ 0xFF [0x01#8])).fault = none := by decide

/-- V-L3. -/
theorem test_load_moves_sp :
    (after (at_ 0 [0x82#8, 7#8, 0x80#8])).reg 7 = 0x80#8 ∧ (after (at_ 0 [0x82#8, 7#8, 0x80#8])).pc = 3#9 := by decide

/-- V-L6: ends at the last cell, `pc` is 256, the next step faults there. -/
theorem test_load_off_the_end :
    (after (at_ 0xFD [0x82#8, 1#8, 0x2A#8])).pc = 0x100#9 ∧
    (after (after (at_ 0xFD [0x82#8, 1#8, 0x2A#8]))).fault = some ⟨.outOfRangeAddress, 256#9⟩ := by decide

/-- V-P2: the stack pointer right after reset. -/
theorem test_print_sp : (after (at_ 0 [0x47#8, 7#8])).out = [244#8] ∧ (after (at_ 0 [0x47#8, 7#8])).pc = 2#9 := by decide

/-- V-P6. -/
theorem test_print_no_operand :
    (after (at_ 0xFF [0x47#8])).fault = some ⟨.outOfRangeAddress, 256#9⟩ ∧ (after (at_ 0xFF [0x47#8])).out = [] := by decide

/-- V-I3: F4 + 0C wraps to 00. -/
theorem test_add_wraps : (after ((at_ 0 [0xA0#8, 7#8, 2#8]).setReg 2 0x0C#8)).reg 7 = 0#8 := by decide

/-- V-I4: operand a is checked first. -/
theorem test_add_operand_order : (after (at_ 0 [0xA0#8, 9#8, 8#8])).fault = some ⟨.outOfRangeRegister, 9#9⟩ := by decide

/-- V-I2. -/
theorem test_multiply_squares : (after ((at_ 0x0B [0xA2#8, 1#8, 1#8]).setReg 1 0x64#8)).reg 1 = 0x10#8 := by decide

/-- S5. -/
theorem test_multiply_5_3 :
    (after (((at_ 6 [0xA2#8, 0#8, 1#8]).setReg 0 5#8).setReg 1 3#8)).reg 0 = 15#8 := by decide

/-- V-S5: PUSH R7 stores the fallen stack pointer. -/
theorem test_push_sp :
    (after (at_ 0 [0x45#8, 7#8])).cell 0xF3 = 0xF3#8 ∧ (after (at_ 0 [0x45#8, 7#8])).reg 7 = 0xF3#8 := by decide

/-- V-S3: the stack pointer wraps downward. -/
theorem test_push_wraps :
    (after (((at_ 6 [0x45#8, 0#8]).setReg 7 0#8).setReg 0 0x5A#8)).cell 0xFF = 0x5A#8 := by decide

/-- V-S6: POP R7 writes first, then increments. -/
theorem test_pop_sp : (after (State.poke ((at_ 5 [0x46#8, 7#8]).setReg 7 0xF3#8) 0xF3 0x10#8)).reg 7 = 0x11#8 := by decide

/-- V-S4: the stack pointer wraps upward. -/
theorem test_pop_wraps :
    (after (State.poke ((at_ 3 [0x46#8, 0#8]).setReg 7 0xFF#8) 0xFF 0x77#8)).reg 0 = 0x77#8 ∧
    (after (State.poke ((at_ 3 [0x46#8, 0#8]).setReg 7 0xFF#8) 0xFF 0x77#8)).reg 7 = 0#8 := by decide

/-- V-C3: CALL R7 jumps to the fallen stack pointer. -/
theorem test_call_sp :
    (after (at_ 6 [0x50#8, 7#8])).pc = 0xF3#9 ∧ (after (at_ 6 [0x50#8, 7#8])).cell 0xF3 = 8#8 := by decide

/-- V-C7: the push overwrites the CALL's own operand byte, which was latched. -/
theorem test_call_latched :
    (after (((at_ 6 [0x50#8, 0#8]).setReg 7 8#8).setReg 0 0x0A#8)).pc = 0x0A#9 ∧
    (after (((at_ 6 [0x50#8, 0#8]).setReg 7 8#8).setReg 0 0x0A#8)).cell 7 = 8#8 := by decide

/-- V-C2. -/
theorem test_ret : (after (State.poke ((at_ 0x0E [0x11#8]).setReg 7 0xF3#8) 0xF3 8#8)).pc = 8#9 := by decide

/-- V-C9: the stack pointer wraps upward. -/
theorem test_ret_wraps : (after (State.poke ((at_ 0x40 [0x11#8]).setReg 7 0xFF#8) 0xFF 0x12#8)).reg 7 = 0#8 := by decide

/-! ### Faults and the ALU -/

/-- V-F2: LS-8's SUB byte. -/
theorem test_illegal_sub : (after (at_ 0x10 [0xA1#8])).fault = some ⟨.illegalInstruction, 0xA1#9⟩ := by decide

/-- V-F3: an illegal byte in the last cell is no address fault. -/
theorem test_illegal_last_cell : (after (at_ 0xFF [0xFF#8])).fault = some ⟨.illegalInstruction, 0xFF#9⟩ := by decide

/-- V-C4 and V-C5: the return address is checked last. -/
theorem test_call_at_254 :
    (after (at_ 0xFE [0x50#8, 0#8])).fault = some ⟨.outOfRangeAddress, 256#9⟩ ∧
    (after (at_ 0xFE [0x50#8, 9#8])).fault = some ⟨.outOfRangeRegister, 9#9⟩ := by decide

/-- V-A9, V-A11: SUBTRACT wraps. -/
theorem test_alu_subtract :
    aluResult aluSubtract 3#8 5#8 = .ok 0xFE#8 ∧ aluResult aluSubtract 0#8 0xFF#8 = .ok 1#8 := ⟨rfl, rfl⟩

/-- R18, R92: the text of values 8, 255 and 0. -/
theorem test_out_numerals : (((State.reset.emit 8#8).emit 255#8).emit 0#8).outNumerals = ["8", "255", "0"] := by decide

/-- `withFetchWord` at reset puts the row's instruction where the first step fetches it. -/
theorem test_withFetchWord :
    (after (State.reset.withFetchWord 24 0x080082)).reg 0 = 8#8 ∧
    (after (State.reset.withFetchWord 8 0x01)).fault = none := by decide

/-! ### Witnesses: states and operands that meet each statement's hypotheses together -/

/-- LaunchPremises, ResetAndLaunchValues: 256 words of 255 launch; 257 words, or one word of 256, do not. -/
theorem witness_launch :
    (launch (List.replicate 256 255)).isSome = true ∧ launch (List.replicate 257 0) = none ∧ launch [256] = none ∧
    (launch []).isSome = true := by
  have h256 : launchable (List.replicate 256 255) = true := by
    simp only [launchable, List.length_replicate, List.all_replicate]
    decide
  have h257 : launchable (List.replicate 257 0) = false := by
    simp only [launchable, List.length_replicate, List.all_replicate]
    decide
  refine ⟨?_, ?_, rfl, rfl⟩
  · simp only [launch, h256, if_true, Option.isSome_some]
  · simp only [launch, h257, Bool.false_eq_true, if_false]

/-- StepKeepsInvariant: a state of the invariant with LOAD_IMMEDIATE in the last three cells steps. -/
theorem witness_invariant : (at_ 0xFD [0x82#8, 1#8, 0x2A#8]).Inv ∧
    ∃ t, step (at_ 0xFD [0x82#8, 1#8, 0x2A#8]) = .next t :=
  ⟨⟨by decide, by decide, fun _ => rfl, fun h => absurd h.1 (by decide), fun f h => by cases h⟩, _, rfl⟩

/-- StoppedMachineFrozen. -/
theorem witness_stopped : State.reset.stop.running = false := rfl

/-- OnlyHaltEndsNormally, HaltWholeStep and the HALT clause of RunningFlagOnlyFalls, at the last cell. -/
theorem witness_halt :
    (at_ 0xFF [0x01#8]).running = true ∧ (at_ 0xFF [0x01#8]).fault = none ∧ (at_ 0xFF [0x01#8]).pc.toNat ≤ 255 ∧
    (at_ 0xFF [0x01#8]).cell (at_ 0xFF [0x01#8]).pc.toNat = opcodes.halt ∧
    ∃ t, step (at_ 0xFF [0x01#8]) = .next t ∧ t.halted :=
  ⟨rfl, rfl, by decide, by decide, _, rfl, rfl, rfl⟩

/-- RunningFlagOnlyFalls, last clause: one step that leaves the flag up. -/
theorem witness_still_running :
    ∃ t, Sys2Proof.core.run 1 (at_ 0 [0x47#8, 0#8]) = .next t ∧ t.running = true := ⟨_, rfl, rfl⟩

/-- DecodeOfEncode, DecodingIsExactComparison: an assignment of the opcodes that is not the default one and meets the
constraint. -/
theorem witness_admissible :
    ({ halt := 0x00#8, loadImmediate := 0x80#8, printRegister := 0x40#8, add := 0x81#8, multiply := 0xBF#8,
       push := 0x41#8, pop := 0x42#8, call := 0x7F#8, ret := 0x3F#8 } : OpcodeMap).Admissible := by
  refine ⟨?_, ?_⟩
  · intro o o'
    cases o <;> cases o' <;> decide
  · intro o
    cases o <;> decide

/-- DecodedBytesAreTheEncoding, DecodingIsExactComparison, LengthFromFirstByte: bytes that decode with one left over, the
shortest operand lists of each format, an illegal byte and a count field of 3. -/
theorem witness_decode :
    decodeWith opcodes [0xA0#8, 1#8, 2#8, 9#8] = .ok (.add 1#8 2#8, [9#8]) ∧
    Opcode.add.operands ≤ [1#8, 2#8].length ∧ Opcode.push.operands ≤ [1#8].length ∧
    Opcode.ret.operands ≤ ([] : List Byte).length ∧
    (∀ o : Opcode, opcodes.value o ≠ 0xA1#8) ∧ operandCount 0xC0#8 = 3 ∧ operandCount 0xFF#8 = 3 := by
  refine ⟨rfl, by decide, by decide, by decide, ?_, by decide, by decide⟩
  intro o
  cases o <;> decide

/-- StepRunsDecoded. -/
theorem witness_decoded :
    (at_ 0xFE [0x50#8, 1#8]).running = true ∧ decode (at_ 0xFE [0x50#8, 1#8]).fetchBytes = .ok (.call 1#8, []) ∧
    (Instr.call 1#8).wellFormed = true := ⟨rfl, rfl, by decide⟩

/-- StepRunsWhatMemoryHolds: RET in the last cell. -/
theorem witness_in_memory : (at_ 0xFF [0x11#8]).running = true ∧
    ∀ (k : Nat) (b : Byte), (encode .ret)[k]? = some b →
      (at_ 0xFF [0x11#8]).pc.toNat + k ≤ 255 ∧ (at_ 0xFF [0x11#8]).cell ((at_ 0xFF [0x11#8]).pc.toNat + k) = b := by
  refine ⟨rfl, fun k b h => ?_⟩
  cases k with
  | zero =>
    have hb : b = 0x11#8 := (Option.some.inj h).symm
    subst hb
    decide
  | succ k => cases h

/-- FetchAtProgramCounter, both sides of the end of memory; StepRefinesPseudocode. -/
theorem witness_fetch :
    (at_ 256 []).running = true ∧ 255 < (at_ 256 []).pc.toNat ∧ (at_ 255 []).running = true ∧
    (at_ 255 []).pc.toNat ≤ 255 := by decide

/-- ProgramCounterSequence, RegisterWritersOnly: an advancing instruction that changes its register. -/
theorem witness_advance : (at_ 0 [0x82#8, 6#8, 0xFF#8]).running = true ∧ (at_ 0 [0x82#8, 6#8, 0xFF#8]).fault = none ∧
    ∃ t, step (at_ 0 [0x82#8, 6#8, 0xFF#8]) = .next t ∧ t.fault = none ∧
      t.reg 6 ≠ (at_ 0 [0x82#8, 6#8, 0xFF#8]).reg 6 :=
  ⟨rfl, rfl, _, rfl, rfl, by decide⟩

/-- ProgramCounterSequence (CALL and its register operand), OnlyPushAndCallStore, RegisterWritersOnly: CALL R7 changes
the cell below the stack pointer and register 7. -/
theorem witness_call_step : (at_ 6 [0x50#8, 7#8]).running = true ∧ (at_ 6 [0x50#8, 7#8]).mem.wf = true ∧
    ((at_ 6 [0x50#8, 7#8]).cell 7).toNat = (7 : RegIdx).val ∧
    ∃ t, step (at_ 6 [0x50#8, 7#8]) = .next t ∧ t.fault = none ∧ t.cell 0xF3 ≠ (at_ 6 [0x50#8, 7#8]).cell 0xF3 ∧
      t.reg 7 ≠ (at_ 6 [0x50#8, 7#8]).reg 7 :=
  ⟨rfl, by decide, by decide, _, rfl, rfl, by decide, by decide⟩

/-- ProgramCounterSequence (RET), RetWholeStep. -/
theorem witness_ret_step : (at_ 0xFF [0x11#8]).running = true ∧ (at_ 0xFF [0x11#8]).pc.toNat ≤ 255 ∧
    (at_ 0xFF [0x11#8]).cell (at_ 0xFF [0x11#8]).pc.toNat = opcodes.ret ∧
    ∃ t, step (at_ 0xFF [0x11#8]) = .next t ∧ t.fault = none :=
  ⟨rfl, by decide, by decide, _, rfl, rfl⟩

/-- FirstFailingCheckIsRecorded, FaultChangesNothingElse, FaultRecordsByCause (illegal byte), the faulting clause of
ProgramCounterSequence and of RunningFlagOnlyFalls. -/
theorem witness_illegal : (at_ 0xFF [0xFF#8]).running = true ∧ (at_ 0xFF [0xFF#8]).fault = none ∧
    (at_ 0xFF [0xFF#8]).pc.toNat ≤ 258 ∧
    ∃ t, step (at_ 0xFF [0xFF#8]) = .next t ∧ t.fault = some ⟨.illegalInstruction, 0xFF#9⟩ :=
  ⟨rfl, rfl, by decide, _, rfl, by decide⟩

/-- FaultRecordsByCause, the ends of the address range. -/
theorem witness_address_faults :
    (at_ 258 []).pc.toNat ≤ 258 ∧
    (∃ t, step (at_ 258 []) = .next t ∧ t.fault = some ⟨.outOfRangeAddress, 258#9⟩) ∧
    ∃ t, step (at_ 0xFE [0xA0#8, 0#8]) = .next t ∧ t.fault = some ⟨.outOfRangeAddress, 256#9⟩ :=
  ⟨by decide, ⟨_, rfl, by decide⟩, _, rfl, by decide⟩

/-- FaultRecordsByCause, the ends of the register range. -/
theorem witness_register_faults :
    (∃ t, step (at_ 0 [0x45#8, 8#8]) = .next t ∧ t.fault = some ⟨.outOfRangeRegister, 8#9⟩) ∧
    ∃ t, step (at_ 0 [0xA2#8, 7#8, 255#8]) = .next t ∧ t.fault = some ⟨.outOfRangeRegister, 255#9⟩ :=
  ⟨⟨_, rfl, by decide⟩, _, rfl, by decide⟩

/-- FaultsIgnoreData: two states that differ in a register and in the output, with one faulting instruction. -/
theorem witness_two_states : ∃ s' : State, s' ≠ at_ 0 [0x46#8, 8#8] ∧ s'.running = true ∧ s'.fault = none ∧
    s'.pc = (at_ 0 [0x46#8, 8#8]).pc ∧
    (∀ k, k < 3 → s'.cell ((at_ 0 [0x46#8, 8#8]).pc.toNat + k) =
      (at_ 0 [0x46#8, 8#8]).cell ((at_ 0 [0x46#8, 8#8]).pc.toNat + k)) ∧
    (∃ t, step (at_ 0 [0x46#8, 8#8]) = .next t) ∧ ∃ t', step s' = .next t' :=
  ⟨((at_ 0 [0x46#8, 8#8]).setReg 7 0#8).emit 1#8, fun h => absurd (congrArg (fun s => s.out) h) (by decide),
    rfl, rfl, rfl, fun _ _ => rfl, ⟨_, rfl⟩, _, rfl⟩

/-- BadRegisterOperandFaults: the first byte above 7 in either operand, the last register in the other; and the
hypotheses `a.toNat = r.val` of the completion statements at both ends. -/
theorem witness_operands :
    7 < (8#8 : Byte).toNat ∧ (7#8 : Byte).toNat = (7 : RegIdx).val ∧ (0#8 : Byte).toNat = (0 : RegIdx).val ∧
    (7#8 : Byte).toNat ≤ 7 := by decide

/-- The hypotheses of a whole-step statement. -/
abbrev MeetsWholeStep (s : State) (op : Byte) : Prop :=
  s.running = true ∧ s.pc.toNat ≤ 255 ∧ s.cell s.pc.toNat = op

/-- The whole-step statements of the instructions with operands, at the last address their bytes fit (253 or 254) and
at the last cell, where they do not. -/
theorem witness_whole_steps :
    MeetsWholeStep (at_ 0xFD [0x82#8, 7#8, 0#8]) opcodes.loadImmediate ∧
    MeetsWholeStep (at_ 0xFE [0x47#8, 7#8]) opcodes.printRegister ∧
    MeetsWholeStep (at_ 0xFD [0xA0#8, 7#8, 7#8]) opcodes.add ∧
    MeetsWholeStep (at_ 0xFD [0xA2#8, 7#8, 7#8]) opcodes.multiply ∧
    MeetsWholeStep (at_ 0xFE [0x45#8, 7#8]) opcodes.push ∧ MeetsWholeStep (at_ 0xFE [0x46#8, 7#8]) opcodes.pop ∧
    MeetsWholeStep (at_ 0xFD [0x50#8, 7#8]) opcodes.call ∧ MeetsWholeStep (at_ 0xFE [0x50#8, 7#8]) opcodes.call ∧
    MeetsWholeStep (at_ 0xFF [0x82#8]) opcodes.loadImmediate ∧ MeetsWholeStep (at_ 0xFF [0x50#8]) opcodes.call := by
  decide

/-- PushCompletes, PushThenPopRestores, CallCompletes, RetResumesAfterCall: canonical memory, an operand naming the last
register, and the last `pc` whose return address fits; CallReturnAddressMustFit: the first whose does not. -/
theorem witness_stack :
    (at_ 253 [0x50#8, 7#8]).mem.wf = true ∧ (7#8 : Byte).toNat = (7 : RegIdx).val ∧
    (at_ 253 [0x50#8, 7#8]).pc.toNat + 2 ≤ 255 ∧ 255 < (at_ 254 [0x50#8, 7#8]).pc.toNat + 2 := by decide

/-- RetResumesAfterCall: a state after the CALL that differs in a register, the output and `pc`. -/
theorem witness_resume : ∃ t u : State, exec (.call 1#8) (at_ 6 [0x50#8, 1#8]) = .next t ∧ u.reg 7 = t.reg 7 ∧
    u.cell (t.reg 7).toNat = t.cell (t.reg 7).toNat ∧ u.reg 0 ≠ t.reg 0 :=
  ⟨after (at_ 6 [0x50#8, 1#8]), ((after (at_ 6 [0x50#8, 1#8])).setReg 0 9#8).emit 1#8, rfl, rfl, rfl, by decide⟩

/-- WellFormedStepsSafely: CALL R7 at the last address it may stand at. -/
theorem witness_safe : (at_ 253 [0x50#8, 7#8]).running = true ∧ (at_ 253 [0x50#8, 7#8]).fault = none ∧
    (Instr.call 7#8).wellFormed = true ∧
    (∀ (k : Nat) (b : Byte), (encode (.call 7#8))[k]? = some b →
      (at_ 253 [0x50#8, 7#8]).pc.toNat + k ≤ 255 ∧
      (at_ 253 [0x50#8, 7#8]).cell ((at_ 253 [0x50#8, 7#8]).pc.toNat + k) = b) ∧
    (at_ 253 [0x50#8, 7#8]).pc.toNat + 2 ≤ 255 := by
  refine ⟨rfl, rfl, by decide, fun k b h => ?_, by decide⟩
  match k, h with
  | 0, h =>
    have hb : b = 0x50#8 := (Option.some.inj h).symm
    subst hb
    decide
  | 1, h =>
    have hb : b = 7#8 := (Option.some.inj h).symm
    subst hb
    decide

/-- FetchSeesThePushedByte: PUSH R7 at the reset stack pointer, then a fetch there. -/
theorem witness_fetch_pushed : ∃ t, exec (.push 7#8) (at_ 0 [0x45#8, 7#8]) = .next t ∧
    ∃ u : State, u.mem = t.mem ∧ u.pc.toNat = ((at_ 0 [0x45#8, 7#8]).reg 7 - 1#8).toNat :=
  ⟨_, rfl, { after (at_ 0 [0x45#8, 7#8]) with pc := 0xF3#9 }, rfl, by decide⟩

/-- AluComputesModulo256: the three selects; MemoryAccesses: the addresses on both sides of the end. -/
theorem witness_alu_and_memory :
    aluAdd ≠ 3#2 ∧ aluSubtract ≠ 3#2 ∧ aluMultiply ≠ 3#2 ∧ 255 < 256 ∧ 255 ≤ 255 ∧ State.reset.mem.wf = true := by decide

/-- OutputOnlyGrows: PRINT_REGISTER R7, alone and as a run of one step. -/
theorem witness_print_step : (at_ 0 [0x47#8, 7#8]).running = true ∧
    (∃ t, step (at_ 0 [0x47#8, 7#8]) = .next t ∧ t.out ≠ (at_ 0 [0x47#8, 7#8]).out) ∧
    ∃ t, Sys2Proof.core.run 1 (at_ 0 [0x47#8, 7#8]) = .next t :=
  ⟨rfl, ⟨_, rfl, by decide⟩, _, rfl⟩

/-- PushesLowerStackPointer, PopsRestorePushedRegisters: operand lists with a repeat, of registers up to the last allowed,
and a state after the PUSHes that has the stack pointer and the cells they left. -/
theorem witness_register_lists :
    (∀ a ∈ [7#8, 0#8, 7#8], (a : Byte).toNat ≤ 7) ∧ (∀ a ∈ [6#8, 0#8, 6#8], (a : Byte).toNat ≤ 6) ∧
    (List.replicate 256 (6#8 : Byte)).length ≤ 256 ∧ State.reset.mem.wf = true ∧
    ∃ t u : State, execAll ([6#8, 0#8, 6#8].map .push) State.reset = .next t ∧ u.reg 7 = t.reg 7 ∧ CellsKept t u ∧
      u.reg 6 ≠ t.reg 6 :=
  ⟨by decide, by decide, Nat.le_of_eq List.length_replicate, rfl, _, State.setReg _ 6 1#8, rfl, by decide, fun _ => rfl, by decide⟩

end Sys2Proof.Tests
end

-- The accessors of memory at any address (R32, R33), and the statement about them.
section

namespace Sys2Proof.Machine

/-- A read inside the address space gives the cell (R32). -/
theorem State.memRead_of_le {s : State} {addr : Nat} (h : addr ≤ 255) : s.memRead addr = .ok (s.cell addr) :=
  if_pos (Nat.lt_succ_of_le h)

/-- A read above the address space faults with the address itself, unwrapped (R32). -/
theorem State.memRead_of_gt {s : State} {addr : Nat} (h : 255 < addr) :
    s.memRead addr = .error (outOfRangeAddress addr) :=
  if_neg (Nat.not_lt_of_ge h)

/-- A write inside the address space changes memory alone (R33). -/
theorem State.memWrite_of_le {s : State} {addr : Nat} (v : Byte) (h : addr ≤ 255) :
    s.memWrite addr v = .ok { s with mem := s.mem.write addr v } :=
  if_pos (Nat.lt_succ_of_le h)

/-- A write above the address space faults with the address itself, unwrapped (R33). -/
theorem State.memWrite_of_gt {s : State} {addr : Nat} (v : Byte) (h : 255 < addr) :
    s.memWrite addr v = .error (outOfRangeAddress addr) :=
  if_neg (Nat.not_lt_of_ge h)

/-- The cell written holds the byte written. -/
theorem State.cell_write_same {s : State} (a : Nat) (v : Byte) (hm : s.mem.wf = true) :
    State.cell { s with mem := s.mem.write a v } a = v :=
  (Memory.read_write a a v hm).trans (if_pos rfl)

/-- A write keeps every cell but the one written. -/
theorem State.cellsKeptBut_write {s : State} (a : Nat) (v : Byte) (hm : s.mem.wf = true) :
    CellsKeptBut a s { s with mem := s.mem.write a v } :=
  fun b hb => (Memory.read_write a b v hm).trans (if_neg hb)

/-- Settles O49: the range check decides between the fault and the access, and the laws of `Memory.write` give the rest. -/
theorem memoryAccesses : Obligations.MemoryAccesses := by
  intro s addr v hm
  refine ⟨fun hgt => ⟨State.memRead_of_gt hgt, State.memWrite_of_gt v hgt⟩,
    fun hle => ⟨State.memRead_of_le hle, _, State.memWrite_of_le v hle, rfl, ?canonical, ?readBack, ?frame⟩⟩
  case canonical => exact Memory.write_wf (Nat.lt_succ_of_le hle) hm
  case readBack => rw [State.memRead_of_le hle, State.cell_write_same addr v hm]
  case frame => exact State.cellsKeptBut_write addr v hm

end Sys2Proof.Machine
end

-- What decoding says of the first byte, the operand bytes and the length (R50, R53, R58), and the statements about it.
section

namespace Sys2Proof

/-- No opcode takes more than two operand bytes (R50). -/
theorem Opcode.operands_le_two (o : Opcode) : o.operands ≤ 2 := by cases o <;> decide

/-- One-operand decoding succeeds exactly on bytes that start with the operand. -/
theorem oneOperand_eq_ok {mk : Byte → Instr} {bytes rest : List Byte} {i : Instr} :
    oneOperand mk bytes = .ok (i, rest) ↔ ∃ a, bytes = a :: rest ∧ i = mk a := by
  cases bytes with
  | nil => simp [oneOperand]
  | cons a tl => simp [oneOperand, eq_comm, and_comm]

/-- Two-operand decoding succeeds exactly on bytes that start with both operands. -/
theorem twoOperands_eq_ok {mk : Byte → Byte → Instr} {bytes rest : List Byte} {i : Instr} :
    twoOperands mk bytes = .ok (i, rest) ↔ ∃ a b, bytes = a :: b :: rest ∧ i = mk a b := by
  match bytes with
  | [] => simp [twoOperands]
  | [_] => simp [twoOperands]
  | a :: b :: tl => simp [twoOperands, eq_comm, and_comm]

/-- What operand decoding answers, under any assignment: an instruction encoded as the opcode's value and the operand
bytes taken, as many as the opcode table says. -/
theorem encodeWith_of_operandsOf (m : OpcodeMap) {o : Opcode} {bytes rest : List Byte} {i : Instr}
    (h : operandsOf o bytes = .ok (i, rest)) :
    ∃ ops, encodeWith m i = m.value o :: ops ∧ bytes = ops ++ rest ∧ ops.length = o.operands := by
  cases o with
  | halt | ret => cases h; exact ⟨[], rfl, rfl, rfl⟩
  | printRegister | push | pop | call =>
    obtain ⟨a, rfl, rfl⟩ := oneOperand_eq_ok.mp h
    exact ⟨[a], rfl, rfl, rfl⟩
  | loadImmediate | add | multiply =>
    obtain ⟨a, b, rfl, rfl⟩ := twoOperands_eq_ok.mp h
    exact ⟨[a, b], rfl, rfl, rfl⟩

/-- Operand decoding succeeds on enough bytes, whatever they are. -/
theorem operandsOf_of_operands_le {o : Opcode} {bytes : List Byte} (h : o.operands ≤ bytes.length) :
    ∃ i rest, operandsOf o bytes = .ok (i, rest) := by
  cases o with
  | halt | ret => exact ⟨_, _, rfl⟩
  | printRegister | push | pop | call =>
    match bytes, h with
    | _ :: _, _ => exact ⟨_, _, rfl⟩
  | loadImmediate | add | multiply =>
    match bytes, h with
    | _ :: _ :: _, _ => exact ⟨_, _, rfl⟩

/-- Decoding succeeds only through the comparison: the first byte is some opcode's value, and that opcode's operand
bytes follow. -/
theorem value_of_decodeWith_ok {m : OpcodeMap} {op : Byte} {bytes rest : List Byte} {i : Instr}
    (h : decodeWith m (op :: bytes) = .ok (i, rest)) : ∃ o, op = m.value o ∧ operandsOf o bytes = .ok (i, rest) := by
  simp only [decodeWith] at h
  split at h
  · cases h
  · next o hc => exact ⟨o, value_of_classify hc, h⟩

/-- Where the values are distinct, an opcode's value leaves the rest to that opcode's operands. -/
theorem decodeWith_value {m : OpcodeMap} (hm : m.Admissible) (o : Opcode) (bytes : List Byte) :
    decodeWith m (m.value o :: bytes) = operandsOf o bytes := by
  simp only [decodeWith, classify_value hm]

/-- A byte that is no opcode's value is illegal, whatever follows it (R56). -/
theorem decodeWith_of_ne_value {m : OpcodeMap} {op : Byte} (h : ∀ o, m.value o ≠ op) (bytes : List Byte) :
    decodeWith m (op :: bytes) = .error (.illegal op) := by
  have hc : classify m op = none :=
    Option.eq_none_iff_forall_ne_some.mpr fun o ho => h o (value_of_classify ho).symm
  simp only [decodeWith, hc]

/-- The count field of an opcode's value is its operand count (R54). -/
theorem operandCount_value {m : OpcodeMap} (hm : m.Admissible) (o : Opcode) :
    operandCount (m.value o) = o.operands := hm.2 o

/-- Settles O13: a successful decode names its opcode, an opcode's value selects it, and no other byte is selected. -/
theorem decodingIsExactComparison : Obligations.DecodingIsExactComparison := by
  intro m hm
  refine ⟨fun o bytes rest i h => ?firstByte, fun o bytes hlen => ?decodes, fun op hne => decodeWith_of_ne_value hne⟩
  case firstByte =>
    rw [decodeWith_value hm] at h
    obtain ⟨ops, henc, -, -⟩ := encodeWith_of_operandsOf m h
    rw [henc, List.head?_cons]
  case decodes =>
    rw [decodeWith_value hm]
    exact operandsOf_of_operands_le hlen

/-- Settles O15: the bytes taken are the opcode's operands, which the count field of its value counts, and no opcode
has three. -/
theorem lengthFromFirstByte : Obligations.LengthFromFirstByte := by
  intro m hm
  refine ⟨fun op bytes rest i h => ?length, fun op hop bytes => decodeWith_of_ne_value (fun o ho => ?threeOperands) bytes⟩
  case length =>
    obtain ⟨o, rfl, hops⟩ := value_of_decodeWith_ok h
    obtain ⟨ops, -, rfl, hlen⟩ := encodeWith_of_operandsOf m hops
    have hle := o.operands_le_two
    rw [operandCount_value hm, List.length_cons, List.length_append, hlen]
    omega
  case threeOperands =>
    have hcount : o.operands = 3 := by rw [← operandCount_value hm, ho, hop]
    have hle := o.operands_le_two
    omega

end Sys2Proof
end

-- The whole step of an instruction with operands, as a list of checks made in order (R72, R73, R74, R79), and the
-- statements about LOAD_IMMEDIATE and PRINT_REGISTER (R91, R92).
section

namespace Sys2Proof.Machine

/-! ### One check of the list at a time -/

/-- An outcome that is fault entry where the first check holds, and the rest of the list where it does not, is the whole
list. -/
theorem State.eq_next_checked_cons {s t : State} {rest : List (Bool × FaultRecord)} {f : FaultRecord} {P : Prop}
    [Decidable P] {out : Host.Outcome State Fault Refusal} (hfault : P → out = .next (s.raise f))
    (hpass : ¬ P → out = .next (s.checked rest t)) : out = .next (s.checked ((decide P, f) :: rest) t) := by
  by_cases h : P
  · simp only [State.checked, h, decide_true, if_true, hfault h]
  · simp only [State.checked, h, decide_false, Bool.false_eq_true, if_false, hpass h]

/-- The fault of a register operand, its `info` the whole byte as a number (R131). -/
theorem outOfRangeRegister_eq_faultOf (b : Byte) : outOfRangeRegister b = faultOf .outOfRangeRegister b.toNat := by
  simp only [outOfRangeRegister, faultOf, BitVec.ofNat_toNat]

/-- The check of a register operand (R13, checks 5 and 6 of R74), then what follows with the register it names. -/
theorem State.orFault_regIndex_eq_checked {s t : State} {rest : List (Bool × FaultRecord)} {b : Byte}
    {k : RegIdx → Host.Outcome State Fault Refusal}
    (hk : ∀ r : RegIdx, b.toNat = r.val → k r = .next (s.checked rest t)) :
    s.orFault (regIndex b) k =
      .next (s.checked ((decide (7 < b.toNat), faultOf .outOfRangeRegister b.toNat) :: rest) t) := by
  refine State.eq_next_checked_cons (fun hgt => ?fault) (fun hle => ?pass)
  case fault => rw [regIndex_of_gt hgt, State.orFault_error, outOfRangeRegister_eq_faultOf]
  case pass =>
    have hreg : b.toNat = (⟨b.toNat, by omega⟩ : RegIdx).val := rfl
    rw [regIndex_of_eq hreg, State.orFault_ok, hk _ hreg]

/-! ### The checks of operand fetch -/

/-- Each of the nine opcode values selects its opcode (R53, R55). -/
theorem classify_opcodes_value (o : Opcode) : classify opcodes (opcodes.value o) = some o := by
  cases o <;> rfl

/-- Where an opcode stands at `pc`, a step is its operand fetch, then the instruction or the fault. -/
theorem step_of_opcode {s : State} {o : Opcode} (hrun : s.running = true) (hpc : s.pc.toNat ≤ 255)
    (hop : s.cell s.pc.toNat = opcodes.value o) :
    step s = s.orFault ((operandsOf o s.fetchBytes.tail).mapError s.decodeFault) fun p => exec p.1 s := by
  rw [step_running hrun, State.fetch_of_le hpc, hop, classify_opcodes_value]
  dsimp only
  cases operandsOf o s.fetchBytes.tail with
  | ok p => rfl
  | error e => rfl

/-- The step of an opcode with one operand byte: the byte's address is checked (R73), then the instruction is executed. -/
theorem step_oneOperand_eq_checked {s t : State} {rest : List (Bool × FaultRecord)} {o : Opcode} {mk : Byte → Instr}
    (hmk : operandsOf o = oneOperand mk) (hrun : s.running = true) (hpc : s.pc.toNat ≤ 255)
    (hop : s.cell s.pc.toNat = opcodes.value o)
    (hexec : exec (mk (s.cell (s.pc.toNat + 1))) s = .next (s.checked rest t)) :
    step s = .next (s.checked
      ((decide (255 < s.pc.toNat + 1), faultOf .outOfRangeAddress (s.pc.toNat + 1)) :: rest) t) := by
  rw [step_of_opcode hrun hpc hop, hmk, State.fetchBytes_tail s hpc]
  refine State.eq_next_checked_cons (fun hgt => ?fault) (fun hle => ?pass)
  case fault =>
    rw [if_pos (by omega)]
    rfl
  case pass =>
    rw [if_neg (by omega), ← hexec]
    split
    · rfl
    · rfl

/-- The step of an opcode with two operand bytes: their addresses are checked in order (R73), then the instruction is
executed. -/
theorem step_twoOperands_eq_checked {s t : State} {rest : List (Bool × FaultRecord)} {o : Opcode}
    {mk : Byte → Byte → Instr} (hmk : operandsOf o = twoOperands mk) (hrun : s.running = true)
    (hpc : s.pc.toNat ≤ 255) (hop : s.cell s.pc.toNat = opcodes.value o)
    (hexec : exec (mk (s.cell (s.pc.toNat + 1)) (s.cell (s.pc.toNat + 2))) s = .next (s.checked rest t)) :
    step s = .next (s.checked
      ((decide (255 < s.pc.toNat + 1), faultOf .outOfRangeAddress (s.pc.toNat + 1)) ::
        (decide (255 < s.pc.toNat + 2), faultOf .outOfRangeAddress (s.pc.toNat + 2)) :: rest) t) := by
  rw [step_of_opcode hrun hpc hop, hmk, State.fetchBytes_tail s hpc]
  refine State.eq_next_checked_cons (fun hgt => ?faultFirst) fun hle =>
    State.eq_next_checked_cons (fun hgt => ?faultSecond) (fun hle' => ?pass)
  case faultFirst =>
    rw [if_pos (by omega)]
    rfl
  case faultSecond =>
    rw [if_neg (by omega), if_pos (by omega)]
    rfl
  case pass =>
    rw [if_neg (by omega), if_neg (by omega), ← hexec]
    rfl

/-! ### LOAD_IMMEDIATE and PRINT_REGISTER -/

/-- The execute phase of LOAD_IMMEDIATE (R91): one register check, then the write and the advance. -/
theorem exec_loadImmediate_eq_checked (s : State) (a imm : Byte) :
    exec (.loadImmediate a imm) s = .next (s.checked
      [(decide (7 < a.toNat), faultOf .outOfRangeRegister a.toNat)]
      ((s.setX a.toNat imm.toNat).setPc (s.pc.toNat + 3))) := by
  refine State.orFault_regIndex_eq_checked fun r hr => congrArg _ ?_
  rw [State.setX_of_eq hr, BitVec.ofNat_toNat, BitVec.setWidth_eq, State.advance_eq]
  rfl

/-- The execute phase of PRINT_REGISTER (R92): one register check, then the output and the advance. -/
theorem exec_printRegister_eq_checked (s : State) (a : Byte) :
    exec (.printRegister a) s = .next (s.checked
      [(decide (7 < a.toNat), faultOf .outOfRangeRegister a.toNat)]
      ((s.emit (s.xAt a.toNat)).setPc (s.pc.toNat + 2))) := by
  refine State.orFault_regIndex_eq_checked fun r hr => congrArg _ ?_
  rw [State.xAt_of_eq hr, State.advance_eq]
  rfl

/-- Settles O29: the two address checks of operand fetch, then the execute phase with its register check. -/
theorem loadImmediateWholeStep : Obligations.LoadImmediateWholeStep := by
  intro s hrun hpc hop
  exact step_twoOperands_eq_checked (o := .loadImmediate) rfl hrun hpc hop (exec_loadImmediate_eq_checked s _ _)

/-- Settles O30: the address check of operand fetch, then the execute phase with its register check. -/
theorem printRegisterWholeStep : Obligations.PrintRegisterWholeStep := by
  intro s hrun hpc hop
  exact step_oneOperand_eq_checked (o := .printRegister) rfl hrun hpc hop (exec_printRegister_eq_checked s _)

end Sys2Proof.Machine
end

-- The execute phase of an ALU instruction over natural numbers (R74, R100), and the statements about ADD and MULTIPLY
-- (R101, R102).
section

namespace Sys2Proof.Machine

/-- The execute phase of an ALU instruction that computes `f` modulo 256 (R74, R100): operand `a` is checked before `b`,
then come the write and the advance past both operand bytes. -/
theorem State.aluInstr_eq_checked {s : State} {op : AluSelect} {opcode : Byte} {f : Nat → Nat → Nat}
    (hlen : operandCount opcode = 2)
    (halu : ∀ d q : RegIdx,
      s.alu op d q = .ok (s.setReg d (BitVec.ofNat 8 (f (s.reg d).toNat (s.reg q).toNat)))) (a b : Byte) :
    s.aluInstr op opcode a b = .next (s.checked
      [(decide (7 < a.toNat), faultOf .outOfRangeRegister a.toNat),
       (decide (7 < b.toNat), faultOf .outOfRangeRegister b.toNat)]
      ((s.setX a.toNat (f (s.xAt a.toNat).toNat (s.xAt b.toNat).toNat)).setPc (s.pc.toNat + 3))) := by
  refine State.orFault_regIndex_eq_checked fun d hd => State.orFault_regIndex_eq_checked fun q hq => ?_
  rw [halu, State.orFault_ok, State.advance_eq, hlen, State.setX_of_eq hd, State.xAt_of_eq hd, State.xAt_of_eq hq]
  rfl

/-- The ALU's ADD writes the integer sum narrowed to 8 bits (R100, R104). -/
theorem State.alu_add_ofNat (s : State) (d q : RegIdx) :
    s.alu aluAdd d q = .ok (s.setReg d (BitVec.ofNat 8 ((s.reg d).toNat + (s.reg q).toNat))) := by
  rw [State.alu_add, BitVec.ofNat_add]
  simp only [BitVec.ofNat_toNat, BitVec.setWidth_eq]

/-- The ALU's MULTIPLY writes the integer product narrowed to 8 bits (R100, R104). -/
theorem State.alu_multiply_ofNat (s : State) (d q : RegIdx) :
    s.alu aluMultiply d q = .ok (s.setReg d (BitVec.ofNat 8 ((s.reg d).toNat * (s.reg q).toNat))) := by
  rw [State.alu_multiply, BitVec.ofNat_mul]
  simp only [BitVec.ofNat_toNat, BitVec.setWidth_eq]

/-- Settles O31: the two address checks of operand fetch, then the execute phase with its two register checks. -/
theorem addWholeStep : Obligations.AddWholeStep := by
  intro s hrun hpc hop
  exact step_twoOperands_eq_checked (o := .add) rfl hrun hpc hop (State.aluInstr_eq_checked rfl s.alu_add_ofNat _ _)

/-- Settles O32: the two address checks of operand fetch, then the execute phase with its two register checks. -/
theorem multiplyWholeStep : Obligations.MultiplyWholeStep := by
  intro s hrun hpc hop
  exact step_twoOperands_eq_checked (o := .multiply) rfl hrun hpc hop
    (State.aluInstr_eq_checked rfl s.alu_multiply_ofNat _ _)

end Sys2Proof.Machine
end

-- Decoding and encoding undo each other under every admissible assignment of the opcode values (R50, R53, R54, R55).
section

namespace Sys2Proof

/-- The opcode an instruction is encoded under. -/
def Instr.opcode : Instr → Opcode
  | .halt => .halt
  | .loadImmediate _ _ => .loadImmediate
  | .printRegister _ => .printRegister
  | .add _ _ => .add
  | .multiply _ _ => .multiply
  | .push _ => .push
  | .pop _ => .pop
  | .call _ => .call
  | .ret => .ret

/-- The operand bytes of an instruction, in the order of their addresses. -/
def Instr.operandBytes : Instr → List Byte
  | .halt => []
  | .loadImmediate a imm => [a, imm]
  | .printRegister a => [a]
  | .add a b => [a, b]
  | .multiply a b => [a, b]
  | .push a => [a]
  | .pop a => [a]
  | .call a => [a]
  | .ret => []

/-- An encoding is the opcode's value followed by the operand bytes (R50). -/
theorem encodeWith_eq_cons (m : OpcodeMap) (i : Instr) :
    encodeWith m i = m.value i.opcode :: i.operandBytes := by cases i <;> rfl

/-- The operand bytes of an instruction, read under its opcode, make that instruction again. -/
theorem operandsOf_operandBytes (i : Instr) (rest : List Byte) :
    operandsOf i.opcode (i.operandBytes ++ rest) = .ok (i, rest) := by cases i <;> rfl

/-- No encoding is longer than three bytes (R58). -/
theorem length_encode_le_three (i : Instr) : (encode i).length ≤ 3 := by
  cases i <;> simp [encode, encodeWith]

/-- Settles O11: the opcode's value selects the opcode, whose operand bytes make the instruction again. -/
theorem decodeOfEncode : Obligations.DecodeOfEncode := by
  intro m hm i rest
  rw [encodeWith_eq_cons, List.cons_append, decodeWith_value hm, operandsOf_operandBytes]

/-- Settles O12: a successful decode names its opcode, and the operand bytes it took are those of the encoding. -/
theorem decodedBytesAreTheEncoding : Obligations.DecodedBytesAreTheEncoding := by
  intro m bytes rest i h
  cases bytes with
  | nil => cases h
  | cons op tl =>
    obtain ⟨o, rfl, hops⟩ := value_of_decodeWith_ok h
    obtain ⟨ops, henc, rfl, -⟩ := encodeWith_of_operandsOf m hops
    rw [henc, List.cons_append]

/-- Distinct opcodes have distinct values: each value selects its own opcode. -/
theorem opcodes_value_inj {o o' : Opcode} (h : opcodes.value o = opcodes.value o') : o = o' := by
  have hsel : classify opcodes (opcodes.value o) = some o' := by rw [h, Machine.classify_opcodes_value]
  rw [Machine.classify_opcodes_value] at hsel
  exact Option.some.inj hsel

/-- The values taken meet the source's constraint (R54). -/
theorem opcodes_admissible : opcodes.Admissible :=
  ⟨fun _ _ => opcodes_value_inj, fun o => by cases o <;> rfl⟩

/-- Settles O14: the values taken are admissible, and the table's operand counts are those of the Operands column. -/
theorem opcodeValuesMeetConstraint : Obligations.OpcodeValuesMeetConstraint := by
  refine ⟨opcodes_admissible.1, fun o => ?_⟩
  rw [operandCount_value opcodes_admissible]
  cases o <;> rfl

/-- Settles O10: the decoder, evaluated on each of the twelve words. -/
theorem tableWordsDecode : Obligations.TableWordsDecode := by
  exact ⟨rfl, rfl, rfl, rfl, rfl, rfl, rfl, rfl, rfl, rfl, rfl, rfl⟩

end Sys2Proof
end

-- What a step finds at `pc` (R70, R72): the instruction whose encoding lies there, or nothing past the last cell.
section

namespace Sys2Proof.Machine

/-- The cells from address `p` on hold the bytes, all of them inside memory. -/
def State.HoldsFrom (s : State) (p : Nat) (bytes : List Byte) : Prop :=
  ∀ (k : Nat) (b : Byte), bytes[k]? = some b → p + k ≤ 255 ∧ s.cell (p + k) = b

@[simp] theorem State.holdsFrom_nil (s : State) (p : Nat) : s.HoldsFrom p [] := by
  intro k b h
  cases h

@[simp] theorem State.holdsFrom_cons {s : State} {p : Nat} {b : Byte} {bytes : List Byte} :
    s.HoldsFrom p (b :: bytes) ↔ (p ≤ 255 ∧ s.cell p = b) ∧ s.HoldsFrom (p + 1) bytes := by
  constructor
  · intro h
    refine ⟨h 0 b rfl, fun k c hk => ?_⟩
    rw [Nat.add_assoc, Nat.add_comm 1 k]
    exact h (k + 1) c hk
  · rintro ⟨hhead, htail⟩ k c hk
    cases k with
    | zero => cases hk; exact hhead
    | succ k =>
      rw [← Nat.add_assoc, Nat.add_right_comm]
      exact htail k c hk

/-- Bytes that lie in memory are the first of the bytes there, as far as those are asked for. -/
theorem State.bytesFrom_of_holdsFrom {s : State} {p n : Nat} {bytes : List Byte} (h : s.HoldsFrom p bytes)
    (hlen : bytes.length ≤ n) : ∃ rest, s.bytesFrom n p = bytes ++ rest := by
  induction bytes generalizing p n with
  | nil => exact ⟨_, rfl⟩
  | cons b tl ih =>
    obtain ⟨⟨hp, rfl⟩, htl⟩ := State.holdsFrom_cons.mp h
    cases n with
    | zero => cases hlen
    | succ n =>
      obtain ⟨rest, hrest⟩ := ih htl (Nat.le_of_succ_le_succ hlen)
      have hcell : p < Config.memCells := Nat.lt_succ_of_le hp
      refine ⟨rest, ?_⟩
      rw [State.bytesFrom, if_pos hcell, hrest, List.cons_append]

/-- Settles O16: once fetch answers the instruction, the step is its execute phase. -/
theorem stepRunsDecoded : Obligations.StepRunsDecoded := by
  intro s i rest hrun hdec _
  rw [step_running hrun, State.fetch, hdec]
  rfl

/-- Settles O17: the encoding in memory starts the bytes fetched, and decodes to its instruction. -/
theorem stepRunsWhatMemoryHolds : Obligations.StepRunsWhatMemoryHolds := by
  intro s i hrun hmem
  obtain ⟨rest, hrest⟩ := State.bytesFrom_of_holdsFrom hmem (length_encode_le_three i)
  have hdec : decode s.fetchBytes = .ok (i, rest) := by
    rw [State.fetchBytes, hrest]
    exact decodeOfEncode opcodes opcodes_admissible i rest
  rw [step_running hrun, State.fetch, hdec]
  rfl

/-- Inside memory the cell at `pc` is the first byte fetched. -/
theorem State.fetchBytes_eq_cons {s : State} (h : s.pc.toNat ≤ 255) :
    ∃ rest, s.fetchBytes = s.cell s.pc.toNat :: rest :=
  State.bytesFrom_of_holdsFrom (bytes := [_]) (by simp [h]) (by simp)

/-- The first byte fetched inside memory, as the head of the bytes. -/
theorem State.head?_fetchBytes {s : State} (h : s.pc.toNat ≤ 255) :
    s.fetchBytes.head? = some (s.cell s.pc.toNat) := by
  obtain ⟨rest, hrest⟩ := State.fetchBytes_eq_cons h
  rw [hrest, List.head?_cons]

/-- Past the last cell a step is the address fault of the opcode fetch (R72). -/
theorem step_beyond {s : State} (hrun : s.running = true) (h : 255 < s.pc.toNat) :
    step s = .next (s.raise (faultOf .outOfRangeAddress s.pc.toNat)) := by
  rw [step_running hrun, State.fetch, State.fetchBytes_beyond h]
  rfl

/-- A byte at `pc` that is no opcode's value makes the step the fault of an illegal instruction (R56). -/
theorem step_illegal {s : State} (hrun : s.running = true) (hpc : s.pc.toNat ≤ 255)
    (hop : ∀ o, opcodes.value o ≠ s.cell s.pc.toNat) :
    step s = .next (s.raise (faultOf .illegalInstruction (s.cell s.pc.toNat).toNat)) := by
  obtain ⟨rest, hrest⟩ := State.fetchBytes_eq_cons hpc
  rw [step_running hrun, State.fetch, decode, hrest, decodeWith_of_ne_value hop]
  simp only [State.orFault_error, State.decodeFault, illegalInstruction, faultOf, BitVec.ofNat_toNat]

/-- Settles O18: past the last cell nothing is fetched; elsewhere the cell at `pc` comes first. -/
theorem fetchAtProgramCounter : Obligations.FetchAtProgramCounter := by
  intro s hrun
  exact ⟨step_beyond hrun, fun hle => ⟨State.head?_fetchBytes hle, State.memRead_of_le hle⟩⟩

/-- Settles O5: cell 0 of the reset memory is zero, which is no opcode's value. -/
theorem emptyMachineFaultsAtOnce : Obligations.EmptyMachineFaultsAtOnce :=
  step_illegal (s := State.reset) rfl (by decide) fun o => by cases o <;> decide

end Sys2Proof.Machine
end

-- The effect of each instruction that completes, as one relation between states, and its tie to the execute phase
-- (R90..R92, R101, R102, R110, R111, R120, R121).
section

namespace Sys2Proof.Machine

/-! ### The shared part of PUSH and CALL -/

/-- A push of one byte: the stack pointer falls, and the byte goes to the new top (R110, R120). -/
def State.pushByte (s : State) (v : Byte) : State := { s.decSp with mem := s.mem.write (s.sp - 1#8).toNat v }

@[simp] theorem State.pushByte_pc (s : State) (v : Byte) : (s.pushByte v).pc = s.pc := rfl

@[simp] theorem State.pushByte_running (s : State) (v : Byte) : (s.pushByte v).running = s.running := rfl

@[simp] theorem State.pushByte_fault (s : State) (v : Byte) : (s.pushByte v).fault = s.fault := rfl

@[simp] theorem State.pushByte_out (s : State) (v : Byte) : (s.pushByte v).out = s.out := rfl

@[simp] theorem State.pushByte_mem (s : State) (v : Byte) :
    (s.pushByte v).mem = s.mem.write (s.sp - 1#8).toNat v := rfl

@[simp] theorem State.pushByte_reg (s : State) (v : Byte) (q : RegIdx) : (s.pushByte v).reg q = s.decSp.reg q := rfl

/-- The store of a push is the model's store at the fallen stack pointer, which never faults (R45). -/
theorem State.memWrite_decSp (s : State) (v : Byte) : s.decSp.memWrite s.decSp.sp.toNat v = .ok (s.pushByte v) := by
  rw [State.memWrite_byte, State.decSp_sp]
  rfl

/-- A push of one byte leaves that byte on top. -/
theorem State.pushByte_cell_top {s : State} (v : Byte) (hm : s.mem.wf = true) :
    (s.pushByte v).cell (s.sp - 1#8).toNat = v :=
  State.cell_write_same (s := s.decSp) _ v hm

/-- A push of one byte keeps every cell but the new top. -/
theorem State.cellsKeptBut_pushByte {s : State} (v : Byte) (hm : s.mem.wf = true) :
    CellsKeptBut (s.sp - 1#8).toNat s (s.pushByte v) :=
  State.cellsKeptBut_write (s := s.decSp) _ v hm

/-- A push of one byte keeps memory canonical. -/
theorem State.pushByte_mem_wf {s : State} (v : Byte) (hm : s.mem.wf = true) : (s.pushByte v).mem.wf = true :=
  Memory.write_wf (s.sp - 1#8).isLt hm

/-! ### Registers kept -/

/-- A write of one register keeps every other. -/
theorem State.setReg_reg_of_ne {s : State} {r q : RegIdx} {v : Byte} (h : q ≠ r) : (s.setReg r v).reg q = s.reg q := by
  rw [State.setReg_reg, if_neg h.symm]

/-- The fall of the stack pointer, seen in register 7. -/
@[simp] theorem State.decSp_reg_seven (s : State) : s.decSp.reg 7 = s.reg 7 - 1#8 := s.decSp_sp

/-- The rise of the stack pointer, seen in register 7. -/
@[simp] theorem State.incSp_reg_seven (s : State) : s.incSp.reg 7 = s.reg 7 + 1#8 := s.incSp_sp

/-- The fall of the stack pointer keeps every other register. -/
theorem State.decSp_reg_of_ne {s : State} {q : RegIdx} (h : q ≠ 7) : s.decSp.reg q = s.reg q :=
  State.setReg_reg_of_ne h

/-- The rise of the stack pointer keeps every other register. -/
theorem State.incSp_reg_of_ne {s : State} {q : RegIdx} (h : q ≠ 7) : s.incSp.reg q = s.reg q :=
  State.setReg_reg_of_ne h

/-- A register after the fall of the stack pointer, in the spelling of the statements. -/
theorem State.decSp_reg_eq_ite (s : State) (r : RegIdx) :
    s.decSp.reg r = if r = 7 then s.reg 7 - 1#8 else s.reg r := by
  split
  · next h => rw [h, State.decSp_reg_seven]
  · next h => rw [State.decSp_reg_of_ne h]

/-! ### The effects -/

/-- What each instruction does once every check on its operands has passed. -/
inductive State.Effect (s : State) : Instr → State → Prop
  | halt : State.Effect s .halt s.stop
  | loadImmediate {a imm : Byte} {r : RegIdx} (ha : a.toNat = r.val) :
      State.Effect s (.loadImmediate a imm) ((s.setReg r imm).advance opcodes.loadImmediate)
  | printRegister {a : Byte} {r : RegIdx} (ha : a.toNat = r.val) :
      State.Effect s (.printRegister a) ((s.emit (s.reg r)).advance opcodes.printRegister)
  | add {a b : Byte} {r q : RegIdx} (ha : a.toNat = r.val) (hb : b.toNat = q.val) :
      State.Effect s (.add a b) ((s.setReg r (s.reg r + s.reg q)).advance opcodes.add)
  | multiply {a b : Byte} {r q : RegIdx} (ha : a.toNat = r.val) (hb : b.toNat = q.val) :
      State.Effect s (.multiply a b) ((s.setReg r (s.reg r * s.reg q)).advance opcodes.multiply)
  | push {a : Byte} {r : RegIdx} (ha : a.toNat = r.val) :
      State.Effect s (.push a) ((s.pushByte (s.decSp.reg r)).advance opcodes.push)
  | pop {a : Byte} {r : RegIdx} (ha : a.toNat = r.val) :
      State.Effect s (.pop a) ((s.setReg r (s.cell s.sp.toNat)).incSp.advance opcodes.pop)
  | call {a : Byte} {r : RegIdx} (ha : a.toNat = r.val) (hret : s.pc.toNat + 2 ≤ 255) :
      State.Effect s (.call a) ((s.pushByte (BitVec.ofNat 8 (s.pc.toNat + 2))).jump (s.decSp.reg r))
  | ret : State.Effect s .ret (s.incSp.jump (s.cell s.sp.toNat))

/-- The execute phase has the effect of its instruction. -/
theorem State.Effect.exec_eq {s t : State} {i : Instr} (h : s.Effect i t) : exec i s = .next t := by
  cases h with
  | halt => rfl
  | loadImmediate ha => rw [exec, execLoadImmediate, regIndex_of_eq ha, State.orFault_ok]
  | printRegister ha => rw [exec, execPrintRegister, regIndex_of_eq ha, State.orFault_ok]
  | add ha hb =>
    rw [exec, execAdd, State.aluInstr, regIndex_of_eq ha, State.orFault_ok, regIndex_of_eq hb, State.orFault_ok,
      State.alu_add, State.orFault_ok]
  | multiply ha hb =>
    rw [exec, execMultiply, State.aluInstr, regIndex_of_eq ha, State.orFault_ok, regIndex_of_eq hb, State.orFault_ok,
      State.alu_multiply, State.orFault_ok]
  | push ha => rw [exec, execPush, regIndex_of_eq ha, State.orFault_ok, State.memWrite_decSp, State.orFault_ok]
  | pop ha => rw [exec, execPop, regIndex_of_eq ha, State.orFault_ok, State.memRead_byte, State.orFault_ok]
  | call ha hret =>
    rw [exec, execCall, regIndex_of_eq ha, State.orFault_ok, returnAddress_of_le hret, State.orFault_ok,
      State.memWrite_decSp, State.orFault_ok, State.pushByte_reg]
  | ret => rw [exec, execRet, State.memRead_byte, State.orFault_ok]

/-- A byte up to 7 names a register. -/
theorem exists_regIdx {b : Byte} (h : b.toNat ≤ 7) : ∃ r : RegIdx, b.toNat = r.val :=
  ⟨⟨b.toNat, Nat.lt_succ_of_le h⟩, rfl⟩

/-- A byte is a register number exactly when it names a register (R13). -/
theorem isRegByte_iff {b : Byte} : isRegByte b = true ↔ ∃ r : RegIdx, b.toNat = r.val := by
  rw [isRegByte, decide_eq_true_iff]
  exact ⟨exists_regIdx, fun ⟨r, hr⟩ => by omega⟩

/-- Every well-formed instruction has an effect; a CALL needs a return address that fits a cell. -/
theorem State.exists_effect {s : State} {i : Instr} (hwf : i.wellFormed = true)
    (hcall : ∀ a, i = .call a → s.pc.toNat + 2 ≤ 255) : ∃ t, s.Effect i t := by
  cases i with
  | halt => exact ⟨_, .halt⟩
  | ret => exact ⟨_, .ret⟩
  | loadImmediate a imm =>
    obtain ⟨r, ha⟩ := isRegByte_iff.mp hwf
    exact ⟨_, .loadImmediate ha⟩
  | printRegister a =>
    obtain ⟨r, ha⟩ := isRegByte_iff.mp hwf
    exact ⟨_, .printRegister ha⟩
  | add a b =>
    obtain ⟨hwa, hwb⟩ := Bool.and_eq_true_iff.mp hwf
    obtain ⟨r, ha⟩ := isRegByte_iff.mp hwa
    obtain ⟨q, hb⟩ := isRegByte_iff.mp hwb
    exact ⟨_, .add ha hb⟩
  | multiply a b =>
    obtain ⟨hwa, hwb⟩ := Bool.and_eq_true_iff.mp hwf
    obtain ⟨r, ha⟩ := isRegByte_iff.mp hwa
    obtain ⟨q, hb⟩ := isRegByte_iff.mp hwb
    exact ⟨_, .multiply ha hb⟩
  | push a =>
    obtain ⟨r, ha⟩ := isRegByte_iff.mp hwf
    exact ⟨_, .push ha⟩
  | pop a =>
    obtain ⟨r, ha⟩ := isRegByte_iff.mp hwf
    exact ⟨_, .pop ha⟩
  | call a =>
    obtain ⟨r, ha⟩ := isRegByte_iff.mp hwf
    exact ⟨_, .call ha (hcall a rfl)⟩

end Sys2Proof.Machine
end

-- Each instruction completes, with its frame, or faults on its own checks (R13, R74, R90..R92, R101, R102, R110, R111,
-- R120, R121).
section

namespace Sys2Proof.Machine

/-- Settles O37: HALT clears the flag and nothing else. -/
theorem haltCompletes : Obligations.HaltCompletes :=
  fun s => ⟨s.stop, rfl, rfl, rfl, rfl, fun _ => rfl, fun _ => rfl, rfl⟩

/-- Settles O38: the one register written is read back, and every other is kept. -/
theorem loadImmediateCompletes : Obligations.LoadImmediateCompletes := by
  intro s a imm r ha
  exact ⟨_, (State.Effect.loadImmediate ha).exec_eq, State.setReg_reg_self s r imm, rfl,
    fun _ hq _ => State.setReg_reg_of_ne hq, fun _ => rfl, rfl, rfl, rfl⟩

/-- Settles O39: the register read is appended to the output. -/
theorem printRegisterCompletes : Obligations.PrintRegisterCompletes := by
  intro s a r ha
  exact ⟨_, (State.Effect.printRegister ha).exec_eq, rfl, rfl, fun _ => rfl, fun _ => rfl, rfl, rfl⟩

/-- Settles O40: the register written holds the 8-bit sum, and every other is kept. -/
theorem addCompletes : Obligations.AddCompletes := by
  intro s a b r q ha hb
  refine ⟨_, (State.Effect.add ha hb).exec_eq, ?sum, rfl, fun _ hp _ => State.setReg_reg_of_ne hp,
    fun _ => rfl, rfl, rfl, rfl⟩
  rw [State.advance_reg, State.setReg_reg_self, BitVec.toNat_add]

/-- Settles O41: the register written holds the 8-bit product, and every other is kept. -/
theorem multiplyCompletes : Obligations.MultiplyCompletes := by
  intro s a b r q ha hb
  refine ⟨_, (State.Effect.multiply ha hb).exec_eq, ?product, rfl, fun _ hp _ => State.setReg_reg_of_ne hp,
    fun _ => rfl, rfl, rfl, rfl⟩
  rw [State.advance_reg, State.setReg_reg_self, BitVec.toNat_mul]

/-- Settles O42: a push of the register's value, read after the stack pointer fell. -/
theorem pushCompletes : Obligations.PushCompletes := by
  intro s a r hm ha
  refine ⟨_, (State.Effect.push ha).exec_eq, s.decSp_reg_seven, ?top, rfl, fun _ hq _ => State.decSp_reg_of_ne hq,
    State.cellsKeptBut_pushByte _ hm, rfl, rfl, rfl⟩
  rw [← State.decSp_reg_eq_ite]
  exact State.pushByte_cell_top _ hm

/-- Settles O43: the write comes before the rise of the stack pointer, which for register 7 starts from the byte
written. -/
theorem popCompletes : Obligations.PopCompletes := by
  intro s a r ha
  refine ⟨_, (State.Effect.pop ha).exec_eq, fun hr => ⟨?value, ?rise⟩, fun hr => ?seven, rfl, fun q hq hq7 => ?frame,
    fun _ => rfl, rfl, rfl, rfl⟩
  case value => exact (State.incSp_reg_of_ne hr).trans (State.setReg_reg_self s r _)
  case rise => rw [State.advance_reg, State.incSp_reg_seven, State.setReg_reg_of_ne (Ne.symm hr)]
  case seven =>
    subst hr
    rw [State.advance_reg, State.incSp_reg_seven, State.setReg_reg_self]
    rfl
  case frame => exact (State.incSp_reg_of_ne hq7).trans (State.setReg_reg_of_ne hq)

/-- A byte taken for a program counter keeps its value (R77). -/
theorem toNat_setWidth_nine (b : Byte) : (b.setWidth 9 : Word9).toNat = b.toNat :=
  BitVec.toNat_setWidth_of_le (by decide)

/-- Settles O44: a push of the return address, then the jump to the register read after the stack pointer fell. -/
theorem callCompletes : Obligations.CallCompletes := by
  intro s a r hm ha hret
  refine ⟨_, (State.Effect.call ha hret).exec_eq, s.decSp_reg_seven, ?top, ?target,
    fun _ hq _ => State.decSp_reg_of_ne hq, State.cellsKeptBut_pushByte _ hm, rfl, rfl, rfl⟩
  case top =>
    have hcell := State.pushByte_cell_top (BitVec.ofNat 8 (s.pc.toNat + 2)) hm
    rw [State.jump_cell]
    exact (congrArg BitVec.toNat hcell).trans (Nat.mod_eq_of_lt (Nat.lt_succ_of_le hret))
  case target =>
    rw [State.jump_pc, State.decSp_reg_eq_ite, toNat_setWidth_nine]

/-- Settles O46: the jump to the byte on top, and the rise of the stack pointer. -/
theorem retCompletes : Obligations.RetCompletes := by
  intro s
  refine ⟨_, State.Effect.ret.exec_eq, ?target, s.incSp_reg_seven, fun _ hq _ => State.incSp_reg_of_ne hq,
    fun _ => rfl, rfl, rfl, rfl⟩
  rw [State.jump_pc, toNat_setWidth_nine]
  rfl

/-- A register operand above 7 ends the execute phase in its fault (R13). -/
theorem State.orFault_regIndex_of_gt {s : State} {b : Byte} {k : RegIdx → Host.Outcome State Fault Refusal}
    (h : 7 < b.toNat) : s.orFault (regIndex b) k = .next (s.raise (faultOf .outOfRangeRegister b.toNat)) := by
  rw [regIndex_of_gt h, State.orFault_error, outOfRangeRegister_eq_faultOf]

/-- An ALU instruction with a legal operand `a` faults on an operand `b` above 7 (R74). -/
theorem State.aluInstr_of_second_gt {s : State} {a b : Byte} {r : RegIdx} (op : AluSelect) (opcode : Byte)
    (ha : a.toNat = r.val) (hb : 7 < b.toNat) :
    s.aluInstr op opcode a b = .next (s.raise (faultOf .outOfRangeRegister b.toNat)) := by
  rw [State.aluInstr, regIndex_of_eq ha, State.orFault_ok, State.orFault_regIndex_of_gt hb]

/-- Settles O25: every execute phase with operand `a` begins with its check, and the ALU's go on with that of `b`. -/
theorem badRegisterOperandFaults : Obligations.BadRegisterOperandFaults := by
  intro s a b r bad
  refine ⟨fun h => ⟨?_, ?_, ?_, ?_, ?_, ?_, ?_⟩,
    fun ha hb => ⟨State.aluInstr_of_second_gt aluAdd _ ha hb, State.aluInstr_of_second_gt aluMultiply _ ha hb⟩⟩
  all_goals exact State.orFault_regIndex_of_gt h

/-- Settles O45: with the register check passed, the return address check fails. -/
theorem callReturnAddressMustFit : Obligations.CallReturnAddressMustFit := by
  intro s a r ha hret
  rw [exec, execCall, regIndex_of_eq ha, State.orFault_ok, returnAddress_of_gt hret, State.orFault_error]
  rfl

end Sys2Proof.Machine
end

-- The whole step of every instruction as a list of checks made in order, and the list of the spec they agree with
-- (R74, R79, R90, R110, R111, R120, R121).
section

namespace Sys2Proof.Machine

/-! ### Whole steps -/

/-- Settles O28: HALT takes no operand, and its execute phase clears the flag. -/
theorem haltWholeStep : Obligations.HaltWholeStep := by
  intro s hrun hpc hop
  rw [step_of_opcode (o := .halt) hrun hpc hop]
  rfl

/-- The execute phase of PUSH (R110): one register check, then the fall, the store and the advance. -/
theorem exec_push_eq_checked (s : State) (a : Byte) :
    let s1 := s.setX 7 ((s.xAt 7).toNat + 255)
    exec (.push a) s = .next (s.checked
      [(decide (7 < a.toNat), faultOf .outOfRangeRegister a.toNat)]
      ((s1.setCell (s1.xAt 7).toNat (s1.xAt a.toNat).toNat).setPc (s.pc.toNat + 2))) := by
  refine State.orFault_regIndex_eq_checked fun r hr => ?_
  rw [State.memWrite_byte, State.orFault_ok, State.advance_eq, State.xAt_seven, State.setX_seven_dec, State.setCell_eq,
    State.xAt_of_eq hr, BitVec.ofNat_toNat, BitVec.setWidth_eq]
  rfl

/-- The execute phase of POP (R111): one register check, then the write, the rise and the advance. -/
theorem exec_pop_eq_checked (s : State) (a : Byte) :
    let s1 := s.setX a.toNat (s.cell (s.xAt 7).toNat).toNat
    exec (.pop a) s = .next (s.checked
      [(decide (7 < a.toNat), faultOf .outOfRangeRegister a.toNat)]
      ((s1.setX 7 ((s1.xAt 7).toNat + 1)).setPc (s.pc.toNat + 2))) := by
  refine State.orFault_regIndex_eq_checked fun r hr => ?_
  rw [State.memRead_byte, State.orFault_ok, State.advance_eq, State.setX_of_eq hr, State.xAt_seven, State.xAt_seven,
    State.setX_seven_inc, BitVec.ofNat_toNat, BitVec.setWidth_eq]
  rfl

/-- The execute phase of CALL (R120): the register check, the return address check, then the fall, the store and the
jump. -/
theorem exec_call_eq_checked (s : State) (a : Byte) :
    let s1 := s.setX 7 ((s.xAt 7).toNat + 255)
    exec (.call a) s = .next (s.checked
      [(decide (7 < a.toNat), faultOf .outOfRangeRegister a.toNat),
       (decide (255 < s.pc.toNat + 2), faultOf .outOfRangeAddress (s.pc.toNat + 2))]
      ((s1.setCell (s1.xAt 7).toNat (s.pc.toNat + 2)).setPc (s1.xAt a.toNat).toNat)) := by
  refine State.orFault_regIndex_eq_checked fun r hr => State.eq_next_checked_cons (fun hgt => ?fault) (fun hle => ?pass)
  case fault =>
    rw [returnAddress_of_gt hgt, State.orFault_error]
    rfl
  case pass =>
    rw [returnAddress_of_le (by omega), State.orFault_ok, State.memWrite_byte, State.orFault_ok, State.jump_eq,
      State.xAt_seven, State.setX_seven_dec, State.setCell_eq, State.xAt_of_eq hr]
    rfl

/-- Settles O33: the address check of operand fetch, then the execute phase with its register check. -/
theorem pushWholeStep : Obligations.PushWholeStep := by
  intro s hrun hpc hop
  exact step_oneOperand_eq_checked (o := .push) rfl hrun hpc hop (exec_push_eq_checked s _)

/-- Settles O34: the address check of operand fetch, then the execute phase with its register check. -/
theorem popWholeStep : Obligations.PopWholeStep := by
  intro s hrun hpc hop
  exact step_oneOperand_eq_checked (o := .pop) rfl hrun hpc hop (exec_pop_eq_checked s _)

/-- Settles O35: the address check of operand fetch, then the execute phase with its two checks. -/
theorem callWholeStep : Obligations.CallWholeStep := by
  intro s hrun hpc hop
  exact step_oneOperand_eq_checked (o := .call) rfl hrun hpc hop (exec_call_eq_checked s _)

/-- Settles O36: RET takes no operand, and its one read never faults. -/
theorem retWholeStep : Obligations.RetWholeStep := by
  intro s hrun hpc hop
  rw [step_of_opcode (o := .ret) hrun hpc hop, State.xAt_seven, State.setX_seven_inc, ← State.jump_eq]
  exact State.Effect.ret.exec_eq

/-! ### The check list -/

/-- The first check of a list that holds, as its fault. -/
def firstHolding (checks : List (Bool × FaultRecord)) : Option FaultRecord := (checks.find? (·.1)).map (·.2)

@[simp] theorem firstHolding_nil : firstHolding [] = none := rfl

@[simp] theorem firstHolding_cons (P : Prop) [Decidable P] (f : FaultRecord) (rest : List (Bool × FaultRecord)) :
    firstHolding ((decide P, f) :: rest) = if P then some f else firstHolding rest := by
  by_cases h : P <;> simp [firstHolding, h]

/-- A list of checks is fault entry at the first that holds, and the state after them where none does. -/
theorem State.checked_eq_elim (s t : State) (checks : List (Bool × FaultRecord)) :
    s.checked checks t = (firstHolding checks).elim t s.raise := by
  induction checks with
  | nil => rfl
  | cons c rest ih =>
    obtain ⟨holds, f⟩ := c
    cases holds with
    | true => rfl
    | false => exact ih

/-- The checks of an opcode standing at `pc`, in the order its step makes them (R74). -/
def State.checksOf (s : State) (o : Opcode) : List (Bool × FaultRecord) :=
  let addr (k : Nat) := (decide (255 < s.pc.toNat + k), faultOf .outOfRangeAddress (s.pc.toNat + k))
  let reg (k : Nat) :=
    (decide (7 < (s.cell (s.pc.toNat + k)).toNat), faultOf .outOfRangeRegister (s.cell (s.pc.toNat + k)).toNat)
  match o with
  | .halt | .ret => []
  | .loadImmediate => [addr 1, addr 2, reg 1]
  | .printRegister | .push | .pop => [addr 1, reg 1]
  | .add | .multiply => [addr 1, addr 2, reg 1, reg 2]
  | .call => [addr 1, reg 1, addr 2]

/-- The step of an opcode is its list of checks, then the effect the pseudocode gives it. -/
theorem step_eq_checked {s : State} {o : Opcode} (hrun : s.running = true) (hpc : s.pc.toNat ≤ 255)
    (hop : s.cell s.pc.toNat = opcodes.value o) :
    step s = .next (s.checked (s.checksOf o) (s.pseudoExecute (s.cell s.pc.toNat) (s.cell (s.pc.toNat + 1)).toNat
      (s.cell (s.pc.toNat + 2)))) := by
  rw [hop]
  cases o with
  | halt => exact haltWholeStep s hrun hpc hop
  | loadImmediate => exact loadImmediateWholeStep s hrun hpc hop
  | printRegister => exact printRegisterWholeStep s hrun hpc hop
  | add => exact addWholeStep s hrun hpc hop
  | multiply => exact multiplyWholeStep s hrun hpc hop
  | push => exact pushWholeStep s hrun hpc hop
  | pop => exact popWholeStep s hrun hpc hop
  | call => exact callWholeStep s hrun hpc hop
  | ret => exact retWholeStep s hrun hpc hop

/-- The pseudocode knows exactly the nine opcode values (R55). -/
theorem knownOpcode_iff {ir : Byte} : knownOpcode ir = true ↔ ∃ o, opcodes.value o = ir := by
  have hlist : knownOpcode ir = decide (ir ∈ List.map opcodes.value
      [.halt, .loadImmediate, .printRegister, .add, .multiply, .push, .pop, .call, .ret]) := rfl
  rw [hlist, decide_eq_true_iff, List.mem_map]
  exact ⟨fun ⟨o, _, ho⟩ => ⟨o, ho⟩, fun ⟨o, ho⟩ => ⟨o, by cases o <;> decide, ho⟩⟩

/-- A byte the pseudocode does not know is no opcode's value. -/
theorem knownOpcode_eq_false_iff {ir : Byte} : knownOpcode ir = false ↔ ∀ o, opcodes.value o ≠ ir := by
  rw [Bool.eq_false_iff, Ne, knownOpcode_iff, not_exists]

/-- Past the last cell the first failing check is that of the opcode's address. -/
theorem State.firstFault_beyond {s : State} (h : 255 < s.pc.toNat) :
    s.firstFault = some (faultOf .outOfRangeAddress s.pc.toNat) := by
  rw [State.firstFault, if_pos h]
  rfl

/-- At a byte that is no opcode's value the first failing check is that of the opcode. -/
theorem State.firstFault_illegal {s : State} (hpc : s.pc.toNat ≤ 255) (h : ∀ o, opcodes.value o ≠ s.cell s.pc.toNat) :
    s.firstFault = some (faultOf .illegalInstruction (s.cell s.pc.toNat).toNat) := by
  rw [State.firstFault, if_neg (by omega), if_pos (knownOpcode_eq_false_iff.mpr h)]
  rfl

/-- At an opcode the first failing check of the spec's list is the first of that opcode's own. -/
theorem State.firstFault_of_opcode {s : State} {o : Opcode} (hpc : s.pc.toNat ≤ 255)
    (hop : s.cell s.pc.toNat = opcodes.value o) : s.firstFault = firstHolding (s.checksOf o) := by
  have hknown : knownOpcode (opcodes.value o) = true := knownOpcode_iff.mpr ⟨o, rfl⟩
  have hcount : operandCount (opcodes.value o) = o.operands := operandCount_value opcodes_admissible o
  have hpc' : ¬ s.pc.toNat > 255 := by omega
  simp only [State.firstFault, hop, hknown, hcount, hpc', if_false, Bool.true_eq_false]
  cases o <;> simp [State.checksOf, Opcode.operands, OpcodeMap.value, opcodes, faultOf]

/-- The pseudocode's step is fault entry at its first failing check, and its effect where there is none. -/
theorem State.pseudoStep_eq_elim (s : State) :
    s.pseudoStep = s.firstFault.elim (s.pseudoExecute (s.cell s.pc.toNat) (s.cell (s.pc.toNat + 1)).toNat
      (s.cell (s.pc.toNat + 2))) s.raise := by
  rw [State.pseudoStep]
  cases s.firstFault <;> rfl

/-- Where a step fetches from: past the last cell, a byte that is no opcode's value, or an opcode. -/
theorem State.fetch_cases (s : State) :
    255 < s.pc.toNat ∨ s.pc.toNat ≤ 255 ∧
      ((∀ o, opcodes.value o ≠ s.cell s.pc.toNat) ∨ ∃ o, s.cell s.pc.toNat = opcodes.value o) := by
  by_cases hpc : 255 < s.pc.toNat
  · exact .inl hpc
  · refine .inr ⟨by omega, ?_⟩
    by_cases hop : ∃ o, opcodes.value o = s.cell s.pc.toNat
    · obtain ⟨o, ho⟩ := hop
      exact .inr ⟨o, ho.symm⟩
    · exact .inl (not_exists.mp hop)

/-- Settles O19: the two agree past the last cell, at a byte that is no opcode's value, and at each opcode. -/
theorem stepRefinesPseudocode : Obligations.StepRefinesPseudocode := by
  intro s hrun
  rw [State.pseudoStep_eq_elim]
  obtain hgt | ⟨hpc, hill | ⟨o, hop⟩⟩ := s.fetch_cases
  · rw [State.firstFault_beyond hgt, Option.elim_some, step_beyond hrun hgt]
  · rw [State.firstFault_illegal hpc hill, Option.elim_some, step_illegal hrun hpc hill]
  · rw [State.firstFault_of_opcode hpc hop, step_eq_checked hrun hpc hop, State.checked_eq_elim]

end Sys2Proof.Machine
end

-- What one step can do: stay stopped, take the first failing check's fault, or have the effect of the well-formed
-- instruction that lies at `pc` (R70, R71, R74, R78, R134).
section

namespace Sys2Proof.Machine

/-! ### From checks that pass to the instruction at `pc` -/

/-- No check of a list is the first to hold exactly where none holds. -/
theorem firstHolding_cons_eq_none {P : Prop} [Decidable P] {f : FaultRecord} {rest : List (Bool × FaultRecord)} :
    firstHolding ((decide P, f) :: rest) = none ↔ ¬ P ∧ firstHolding rest = none := by
  rw [firstHolding_cons]
  split
  · next h => simp [h]
  · next h => simp [h]

/-- An operand byte not above 7 is a register number (R13). -/
theorem isRegByte_of_not_gt {b : Byte} (h : ¬ 7 < b.toNat) : isRegByte b = true :=
  decide_eq_true (Nat.le_of_not_lt h)

/-- An opcode at `pc` and one operand byte inside memory are there. -/
theorem State.holdsFrom_one {s : State} {op : Byte} (hpc : s.pc.toNat ≤ 255) (hop : s.cell s.pc.toNat = op)
    (h1 : ¬ 255 < s.pc.toNat + 1) : s.HoldsFrom s.pc.toNat [op, s.cell (s.pc.toNat + 1)] := by
  simp [hpc, hop, Nat.le_of_not_lt h1]

/-- An opcode at `pc` and two operand bytes inside memory are there. -/
theorem State.holdsFrom_two {s : State} {op : Byte} (hpc : s.pc.toNat ≤ 255) (hop : s.cell s.pc.toNat = op)
    (h2 : ¬ 255 < s.pc.toNat + 2) :
    s.HoldsFrom s.pc.toNat [op, s.cell (s.pc.toNat + 1), s.cell (s.pc.toNat + 2)] := by
  simp [hpc, hop, Nat.le_of_not_lt h2, show s.pc.toNat + 1 ≤ 255 by omega]

/-- Where no check fails, a well-formed instruction lies at `pc`, and a CALL's return address fits a cell. -/
theorem State.exists_instr_of_firstFault_eq_none {s : State} (h : s.firstFault = none) :
    ∃ i : Instr, s.HoldsFrom s.pc.toNat (encode i) ∧ i.wellFormed = true ∧
      ∀ a, i = .call a → s.pc.toNat + 2 ≤ 255 := by
  obtain hgt | ⟨hpc, hill | ⟨o, hop⟩⟩ := s.fetch_cases
  · rw [State.firstFault_beyond hgt] at h
    cases h
  · rw [State.firstFault_illegal hpc hill] at h
    cases h
  · rw [State.firstFault_of_opcode hpc hop] at h
    cases o with simp only [State.checksOf, firstHolding_cons_eq_none] at h
    | halt => exact ⟨.halt, State.holdsFrom_cons.mpr ⟨⟨hpc, hop⟩, s.holdsFrom_nil _⟩, rfl, nofun⟩
    | ret => exact ⟨.ret, State.holdsFrom_cons.mpr ⟨⟨hpc, hop⟩, s.holdsFrom_nil _⟩, rfl, nofun⟩
    | printRegister =>
      obtain ⟨h1, ha, -⟩ := h
      exact ⟨.printRegister _, State.holdsFrom_one hpc hop h1, isRegByte_of_not_gt ha, nofun⟩
    | push =>
      obtain ⟨h1, ha, -⟩ := h
      exact ⟨.push _, State.holdsFrom_one hpc hop h1, isRegByte_of_not_gt ha, nofun⟩
    | pop =>
      obtain ⟨h1, ha, -⟩ := h
      exact ⟨.pop _, State.holdsFrom_one hpc hop h1, isRegByte_of_not_gt ha, nofun⟩
    | call =>
      obtain ⟨h1, ha, h2, -⟩ := h
      exact ⟨.call _, State.holdsFrom_one hpc hop h1, isRegByte_of_not_gt ha, fun _ _ => Nat.le_of_not_lt h2⟩
    | loadImmediate =>
      obtain ⟨-, h2, ha, -⟩ := h
      exact ⟨.loadImmediate _ _, State.holdsFrom_two hpc hop h2, isRegByte_of_not_gt ha, nofun⟩
    | add =>
      obtain ⟨-, h2, ha, hb, -⟩ := h
      exact ⟨.add _ _, State.holdsFrom_two hpc hop h2,
        Bool.and_eq_true_iff.mpr ⟨isRegByte_of_not_gt ha, isRegByte_of_not_gt hb⟩, nofun⟩
    | multiply =>
      obtain ⟨-, h2, ha, hb, -⟩ := h
      exact ⟨.multiply _ _, State.holdsFrom_two hpc hop h2,
        Bool.and_eq_true_iff.mpr ⟨isRegByte_of_not_gt ha, isRegByte_of_not_gt hb⟩, nofun⟩

/-! ### The inversion of a step -/

/-- From a running state a step is fault entry at the first failing check, or, where no check fails, the effect of the
instruction that lies at `pc`. -/
theorem step_cases {s t : State} (hrun : s.running = true) (h : step s = .next t) :
    (∃ f, s.firstFault = some f ∧ t = s.raise f) ∨
      (s.firstFault = none ∧ ∃ i, s.HoldsFrom s.pc.toNat (encode i) ∧ s.Effect i t) := by
  cases hff : s.firstFault with
  | some f =>
    rw [stepRefinesPseudocode s hrun, State.pseudoStep_eq_elim, hff] at h
    exact .inl ⟨f, rfl, (Host.Outcome.next.inj h).symm⟩
  | none =>
    obtain ⟨i, hi, hwf, hcall⟩ := State.exists_instr_of_firstFault_eq_none hff
    obtain ⟨u, hu⟩ := State.exists_effect hwf hcall
    rw [stepRunsWhatMemoryHolds s i hrun hi, hu.exec_eq] at h
    cases h
    exact .inr ⟨rfl, i, hi, hu⟩

/-- The opcode byte of an instruction that lies in memory. -/
theorem State.HoldsFrom.ir {s : State} {p : Nat} {op : Byte} {rest : List Byte} (h : s.HoldsFrom p (op :: rest)) :
    s.cell p = op := (h 0 op rfl).2

/-- Operand byte `a` of an instruction that lies in memory. -/
theorem State.HoldsFrom.opa {s : State} {p : Nat} {op a : Byte} {rest : List Byte}
    (h : s.HoldsFrom p (op :: a :: rest)) : s.cell (p + 1) = a := (h 1 a rfl).2

/-- An instruction that lies at `pc` has its opcode's value in the cell there. -/
theorem State.HoldsFrom.opcode {s : State} {i : Instr} (h : s.HoldsFrom s.pc.toNat (encode i)) :
    s.pc.toNat ≤ 255 ∧ s.cell s.pc.toNat = opcodes.value i.opcode :=
  h 0 _ (by rw [encode, encodeWith_eq_cons]; rfl)

/-! ### What an effect leaves alone -/

/-- No effect writes the fault record. -/
theorem State.Effect.fault_eq {s t : State} {i : Instr} (h : s.Effect i t) : t.fault = s.fault := by
  cases h <;> rfl

/-- Only HALT's effect writes the running flag. -/
theorem State.Effect.running_eq_or_halt {s t : State} {i : Instr} (h : s.Effect i t) :
    t.running = s.running ∨ (i = .halt ∧ t = s.stop) := by
  cases h with
  | halt => exact .inr ⟨rfl, rfl⟩
  | _ => exact .inl rfl

/-- Only PUSH and CALL store, in the cell below the stack pointer. -/
theorem State.Effect.mem_eq_or_write {s t : State} {i : Instr} (h : s.Effect i t) :
    t.mem = s.mem ∨ ((i.opcode = .push ∨ i.opcode = .call) ∧ ∃ v, t.mem = s.mem.write (s.sp - 1#8).toNat v) := by
  cases h with
  | push => exact .inr ⟨.inl rfl, _, rfl⟩
  | call => exact .inr ⟨.inr rfl, _, rfl⟩
  | _ => exact .inl rfl

/-- Every effect keeps memory canonical. -/
theorem State.Effect.mem_wf {s t : State} {i : Instr} (h : s.Effect i t) (hm : s.mem.wf = true) : t.mem.wf = true := by
  obtain hmem | ⟨-, v, hmem⟩ := h.mem_eq_or_write
  · rw [hmem, hm]
  · rw [hmem]
    exact Memory.write_wf (s.sp - 1#8).isLt hm

/-- Every effect but HALT's and those of the control transfers advances `pc` past the operand bytes (R76). -/
theorem State.Effect.pc_eq_advance {s t : State} {i : Instr} (h : s.Effect i t) (hhalt : i.opcode ≠ .halt)
    (hcall : i.opcode ≠ .call) (hret : i.opcode ≠ .ret) : t.pc = s.pc + BitVec.ofNat 9 (1 + i.opcode.operands) := by
  cases h with
  | halt => exact absurd rfl hhalt
  | call => exact absurd rfl hcall
  | ret => exact absurd rfl hret
  | _ => rfl

/-- The generic advance does not wrap from a `pc` that can be fetched from (R76). -/
theorem toNat_pc_advance {pc : Word9} (hpc : pc.toNat ≤ 255) (o : Opcode) :
    (pc + BitVec.ofNat 9 (1 + o.operands)).toNat = pc.toNat + 1 + o.operands := by
  have ho := o.operands_le_two
  rw [BitVec.toNat_add, BitVec.toNat_ofNat]
  omega

/-- Every effect leaves `pc` in its range (R14). -/
theorem State.Effect.pc_le {s t : State} {i : Instr} (h : s.Effect i t) (hpc : s.pc.toNat ≤ 255) :
    t.pc.toNat ≤ 258 := by
  cases hi : i.opcode with
  | halt =>
    cases h <;> cases hi
    exact Nat.le_trans hpc (by decide)
  | call | ret =>
    cases h <;> cases hi
    rw [State.jump_pc, toNat_setWidth_nine]
    omega
  | _ =>
    have hle := i.opcode.operands_le_two
    rw [h.pc_eq_advance (by simp [hi]) (by simp [hi]) (by simp [hi]), toNat_pc_advance hpc]
    omega

end Sys2Proof.Machine
end

-- The invariant at reset, at launch and over every step (R14, R17, R90, R134, R150, R152).
section

namespace Sys2Proof.Machine

/-- The reset state with any canonical memory meets the invariant. -/
theorem State.inv_reset_withMem {m : Memory} (hm : m.wf = true) : State.Inv { State.reset with mem := m } where
  memory := hm
  pcRange := Nat.zero_le _
  runningClean := fun _ => rfl
  haltedAtHalt := fun h => nomatch h.1
  faultExplained := nofun

/-- Settles O3: the reset memory is canonical. -/
theorem resetMeetsInvariant : Obligations.ResetMeetsInvariant := State.inv_reset_withMem State.reset_mem_wf

/-- Fault entry at the first failing check keeps the invariant: that check reads `pc` and memory alone. -/
theorem State.Inv.raise {s : State} (h : s.Inv) {f : FaultRecord} (hf : s.firstFault = some f) : (s.raise f).Inv where
  memory := h.memory
  pcRange := h.pcRange
  runningClean := nofun
  haltedAtHalt := nofun
  faultExplained := by
    intro g hg
    rw [← hg]
    exact hf

/-- The effect of the instruction at `pc` keeps the invariant from a running state: it records no fault, and only HALT
stops, at its own byte. -/
theorem State.Inv.effect {s t : State} {i : Instr} (h : s.Inv) (hrun : s.running = true)
    (hi : s.HoldsFrom s.pc.toNat (encode i)) (heff : s.Effect i t) : t.Inv := by
  obtain ⟨hpc, hop⟩ := hi.opcode
  have hfault : t.fault = none := heff.fault_eq.trans (h.runningClean hrun)
  refine ⟨heff.mem_wf h.memory, heff.pc_le hpc, fun _ => hfault, fun hhalted => ?halted, fun f hf => ?explained⟩
  case halted =>
    obtain hkept | ⟨rfl, rfl⟩ := heff.running_eq_or_halt
    · rw [State.halted, hkept, hrun] at hhalted
      cases hhalted.1
    · exact ⟨hpc, hop⟩
  case explained =>
    rw [hfault] at hf
    cases hf

/-- Settles O4: a stopped state stays, and a running one takes the first failing check's fault or the effect of the
instruction at `pc`. -/
theorem stepKeepsInvariant : Obligations.StepKeepsInvariant := by
  intro s t hinv hstep
  cases hrun : s.running with
  | false =>
    rw [step_stopped hrun] at hstep
    cases hstep
    exact hinv
  | true =>
    obtain ⟨f, hf, rfl⟩ | ⟨-, i, hi, heff⟩ := step_cases hrun hstep
    · exact hinv.raise hf
    · exact hinv.effect hrun hi heff

/-- The launch premises as the spec words them (R152). -/
theorem launchable_iff {image : List Nat} : launchable image = true ↔ image.length ≤ 256 ∧ ∀ w ∈ image, w < 256 := by
  rw [launchable, Bool.and_eq_true, decide_eq_true_iff, List.all_eq_true]
  simp only [decide_eq_true_iff]
  rfl

/-- A launched state is the reset state with the image stored from address 0. -/
theorem launch_eq_some_iff {image : List Nat} {s : State} : launch image = some s ↔
    (image.length ≤ 256 ∧ ∀ w ∈ image, w < 256) ∧
      s = { State.reset with mem := Memory.store [] 0 (image.map fun w => BitVec.ofNat 8 w) } := by
  rw [← launchable_iff, launch]
  split
  · next h => rw [Option.some_inj, eq_comm, and_iff_right h]; rfl
  · next h => simp [h]

/-- A stored image is canonical memory. -/
theorem storedImage_wf (image : List Byte) : (Memory.store [] 0 image).wf = true := Memory.store_wf rfl

/-- Settles O2: the two premises are the launch's own, and a stored image is canonical memory. -/
theorem launchPremises : Obligations.LaunchPremises := by
  intro image
  refine ⟨?refused, fun s h => ?inv⟩
  case refused =>
    rw [launch, ite_eq_right_iff]
    simp only [reduceCtorEq, imp_false, launchable_iff, not_and_or, not_forall, Nat.not_le, Nat.not_lt, exists_prop]
    rfl
  case inv =>
    obtain ⟨-, rfl⟩ := launch_eq_some_iff.mp h
    exact State.inv_reset_withMem (storedImage_wf _)

/-- Cell `a` of a stored image holds word `a`, and zero from the image's end on. -/
theorem toNat_read_storedImage {image : List Nat} (hlen : image.length ≤ 256) (hword : ∀ w ∈ image, w < 256) (a : Nat) :
    (Memory.read (Memory.store [] 0 (image.map fun w => BitVec.ofNat 8 w)) a).toNat = image.getD a 0 := by
  rw [Memory.read_store 0 a _ rfl]
  by_cases ha : a < image.length
  · have hcell : 0 ≤ a ∧ a < Config.memCells := ⟨Nat.zero_le a, Nat.lt_of_lt_of_le ha hlen⟩
    have hw : image[a] < 256 := hword _ (List.getElem_mem ha)
    simp [hcell, ha, hw]
  · simp [ha, Memory.read]

/-- Settles O1: reset is written out, and a launch changes its memory alone. -/
theorem resetAndLaunchValues : Obligations.ResetAndLaunchValues := by
  refine ⟨⟨rfl, rfl, by decide, rfl, rfl, rfl, fun _ => rfl⟩, fun image s h => ?_⟩
  obtain ⟨⟨hlen, hword⟩, rfl⟩ := launch_eq_some_iff.mp h
  exact ⟨rfl, toNat_read_storedImage hlen hword⟩

end Sys2Proof.Machine
end

-- Running, stopping and faulting: what a step and a run do to the running flag and the fault record (R16, R17, R74,
-- R78, R131, R134).
section

namespace Sys2Proof.Machine

/-! ### Stopping -/

/-- Settles O6: by induction on the steps, each of which answers the same state. -/
theorem stoppedMachineFrozen : Obligations.StoppedMachineFrozen := by
  intro s k hstop
  induction k with
  | zero => exact core_run_zero s
  | succ k ih => exact (core_run_of_next k (step_stopped hstop)).trans ih

/-- Settles O7: a running state steps as the pseudocode does, and a stopped one stays. -/
theorem stepAlwaysAnswersNext : Obligations.StepAlwaysAnswersNext := by
  intro s
  cases hrun : s.running with
  | true => exact ⟨_, stepRefinesPseudocode s hrun⟩
  | false => exact ⟨_, step_stopped hrun⟩

/-- A running state whose next state is stopped was at a HALT, which is all it did, or faulted. -/
theorem step_stops_cases {s t : State} (hrun : s.running = true) (h : step s = .next t) (hstop : t.running = false) :
    (s.pc.toNat ≤ 255 ∧ s.cell s.pc.toNat = opcodes.halt ∧ t = s.stop) ∨ ∃ f, t = s.raise f := by
  obtain ⟨f, -, rfl⟩ | ⟨-, i, hi, heff⟩ := step_cases hrun h
  · exact .inr ⟨f, rfl⟩
  · obtain hkept | ⟨rfl, rfl⟩ := heff.running_eq_or_halt
    · rw [hkept, hrun] at hstop
      cases hstop
    · obtain ⟨hpc, hop⟩ := hi.opcode
      exact .inl ⟨hpc, hop, rfl⟩

/-- Settles O8: a fault would be recorded, so the step was HALT's. -/
theorem onlyHaltEndsNormally : Obligations.OnlyHaltEndsNormally := by
  intro s t hrun _ hstep hhalted
  obtain ⟨hstop, hclean⟩ := hhalted
  obtain hhalt | ⟨f, rfl⟩ := step_stops_cases hrun hstep hstop
  · exact hhalt
  · cases hclean

/-- Settles O9: a HALT and a fault clear the flag and nothing else does; a stopped state stays stopped for any number of
steps. -/
theorem runningFlagOnlyFalls : Obligations.RunningFlagOnlyFalls := by
  refine ⟨rfl, fun s t hrun hstep => ⟨fun hstop => ?stops, ?stopped⟩, fun k s t hk ht => ?run⟩
  case stops =>
    obtain ⟨hpc, hop, -⟩ | hfault := step_stops_cases hrun hstep hstop
    · exact .inl ⟨hpc, hop⟩
    · exact .inr hfault
  case stopped =>
    rintro (⟨hpc, hop⟩ | ⟨f, rfl⟩)
    · rw [haltWholeStep s hrun hpc hop] at hstep
      cases hstep
      rfl
    · rfl
  case run =>
    by_contra hstop
    have hs : s.running = false := Bool.eq_false_iff.mpr hstop
    have hst := (stoppedMachineFrozen s k hs).symm.trans hk
    cases hst
    exact hstop ht

/-! ### Faults -/

/-- From a running state with no fault, a step records the first failing check, and nothing where none fails. -/
theorem fault_of_step {s t : State} (hrun : s.running = true) (hclean : s.fault = none) (h : step s = .next t) :
    t.fault = s.firstFault := by
  obtain ⟨f, hf, rfl⟩ | ⟨hnone, i, -, heff⟩ := step_cases hrun h
  · exact hf.symm
  · rw [heff.fault_eq, hclean, hnone]

/-- Settles O21: the record is the first failing check. -/
theorem firstFailingCheckIsRecorded : Obligations.FirstFailingCheckIsRecorded := by
  intro s t f hrun hclean hstep
  rw [fault_of_step hrun hclean hstep]

/-- Settles O22: a step that records a fault is fault entry. -/
theorem faultChangesNothingElse : Obligations.FaultChangesNothingElse := by
  intro s t hrun hclean hstep hfault
  obtain ⟨f, -, rfl⟩ | ⟨-, i, -, heff⟩ := step_cases hrun hstep
  · exact ⟨rfl, fun _ => rfl, rfl, fun _ => rfl, rfl⟩
  · exact absurd (heff.fault_eq.trans hclean) hfault

/-- What the first failing check is: an address of the fetch or of CALL's return, a byte that is no opcode, or an
operand byte above 7. -/
theorem State.firstFault_eq_some_cases {s : State} {f : FaultRecord} (h : s.firstFault = some f) :
    (∃ k ≤ 2, 255 < s.pc.toNat + k ∧ (k = 0 ∨ s.pc.toNat ≤ 255) ∧ f = faultOf .outOfRangeAddress (s.pc.toNat + k)) ∨
      ((∀ o, opcodes.value o ≠ s.cell s.pc.toNat) ∧ f = faultOf .illegalInstruction (s.cell s.pc.toNat).toNat) ∨
      ∃ b : Byte, 7 < b.toNat ∧ f = faultOf .outOfRangeRegister b.toNat := by
  rw [State.firstFault] at h
  split_ifs at h with hpc hop h1 h2 ha hb hret <;> cases h
  · exact .inl ⟨0, by decide, hpc, .inl rfl, rfl⟩
  · exact .inr (.inl ⟨knownOpcode_eq_false_iff.mp hop, rfl⟩)
  · exact .inl ⟨1, by decide, h1.2, .inr (Nat.le_of_not_lt hpc), rfl⟩
  · exact .inl ⟨2, by decide, h2.2, .inr (Nat.le_of_not_lt hpc), rfl⟩
  · exact .inr (.inr ⟨_, ha.2, rfl⟩)
  · exact .inr (.inr ⟨_, hb.2, rfl⟩)
  · exact .inl ⟨2, by decide, hret.2, .inr (Nat.le_of_not_lt hpc), rfl⟩

/-- The `info` of a fault record is the number it was made from, where 9 bits hold it (R17). -/
theorem toNat_faultOf_info {c : FaultCause} {n : Nat} (h : n < 512) : (faultOf c n).info.toNat = n :=
  Nat.mod_eq_of_lt h

/-- Settles O23: the record is the first failing check, whose `info` each of its three forms gives. -/
theorem faultRecordsByCause : Obligations.FaultRecordsByCause := by
  intro s t f hrun hclean hpc hstep hf
  rw [fault_of_step hrun hclean hstep] at hf
  obtain ⟨k, hk, hgt, hle, rfl⟩ | ⟨hill, rfl⟩ | ⟨b, hb, rfl⟩ := State.firstFault_eq_some_cases hf
  · have hinfo : s.pc.toNat + k ≤ 258 := by omega
    change 256 ≤ (faultOf .outOfRangeAddress _).info.toNat ∧ (faultOf .outOfRangeAddress _).info.toNat ≤ 258
    rw [toNat_faultOf_info (by omega)]
    exact ⟨hgt, hinfo⟩
  · exact ⟨toNat_faultOf_info (by omega), hill⟩
  · change 8 ≤ (faultOf .outOfRangeRegister _).info.toNat ∧ (faultOf .outOfRangeRegister _).info.toNat ≤ 255
    rw [toNat_faultOf_info (by omega)]
    exact ⟨hb, Nat.le_of_lt_succ b.isLt⟩

/-- The first failing check reads `pc` and the three cells from it alone. -/
theorem State.firstFault_congr {s s' : State} (hpc : s'.pc = s.pc)
    (hcells : ∀ k, k < 3 → s'.cell (s.pc.toNat + k) = s.cell (s.pc.toNat + k)) : s'.firstFault = s.firstFault := by
  have h0 : s'.cell s.pc.toNat = s.cell s.pc.toNat := hcells 0 (by decide)
  have h1 := hcells 1 (by decide)
  have h2 := hcells 2 (by decide)
  simp only [State.firstFault, hpc, h0, h1, h2]

/-- Settles O24: the record is the first failing check, which the two states share. -/
theorem faultsIgnoreData : Obligations.FaultsIgnoreData := by
  intro s s' t t' hrun hrun' hclean hclean' hpc hcells hstep hstep'
  rw [fault_of_step hrun hclean hstep, fault_of_step hrun' hclean' hstep', State.firstFault_congr hpc hcells]

/-- Settles O26: the step is the instruction's execute phase, whose effect records no fault. -/
theorem wellFormedStepsSafely : Obligations.WellFormedStepsSafely := by
  intro s i hrun hclean hwf hmem hcall
  obtain ⟨t, ht⟩ := State.exists_effect hwf hcall
  exact ⟨t, (stepRunsWhatMemoryHolds s i hrun hmem).trans ht.exec_eq,
    fun hfaulted => hfaulted.2 (ht.fault_eq.trans hclean)⟩

/-- Settles O27: code and `info` of each cause. -/
theorem statusPortShowsFault : Obligations.StatusPortShowsFault := by
  intro s
  rw [State.status]
  cases s.fault with
  | none => rfl
  | some f =>
    obtain ⟨cause, info⟩ := f
    cases cause <;> rfl

end Sys2Proof.Machine
end

-- What a step writes: `pc`, registers, cells and output by instruction (R11, R14, R18, R34, R76, R77).
section

namespace Sys2Proof.Machine

/-! ### The program counter -/

/-- Settles O20: each effect moves `pc` in the way of its opcode, which the byte at `pc` tells apart. -/
theorem programCounterSequence : Obligations.ProgramCounterSequence := by
  intro s t hrun hclean hstep ir opa
  obtain ⟨f, -, rfl⟩ | ⟨-, i, hi, heff⟩ := step_cases hrun hstep
  · exact ⟨fun _ => rfl, nofun⟩
  obtain ⟨hpc, hop⟩ := hi.opcode
  have hir : ∀ {o : Opcode}, ir = opcodes.value o → i.opcode = o := fun h => opcodes_value_inj (hop.symm.trans h)
  refine ⟨fun hfault => absurd (heff.fault_eq.trans hclean) hfault, fun _ =>
    ⟨fun hhalt hcall hret => ?advance, fun hhalt => ?halt, fun hcall r hr => ?call, fun hret => ?ret⟩⟩
  case advance =>
    have hne : ∀ {o : Opcode}, ir ≠ opcodes.value o → i.opcode ≠ o := fun h ho => h (ho ▸ hop)
    have hcount : operandCount ir = i.opcode.operands := by
      rw [← operandCount_value opcodes_admissible, ← hop]
    rw [heff.pc_eq_advance (hne (o := .halt) hhalt) (hne (o := .call) hcall) (hne (o := .ret) hret),
      toNat_pc_advance hpc, hcount]
  case halt =>
    have ho := hir (o := .halt) hhalt
    cases heff with
    | halt => rfl
    | _ => cases ho
  case call =>
    have ho := hir (o := .call) hcall
    cases heff with
    | @call a q ha =>
      have hq : q = r := Fin.ext (by rw [← ha, ← hr, ← hi.opa])
      rw [State.jump_pc, toNat_setWidth_nine, State.decSp_reg_eq_ite, hq]
    | _ => cases ho
  case ret =>
    have ho := hir (o := .ret) hret
    cases heff with
    | ret => exact toNat_setWidth_nine _
    | _ => cases ho

/-! ### Cells -/

/-- Settles O51: an effect that changes memory is PUSH's or CALL's, and its write keeps every cell but one. -/
theorem onlyPushAndCallStore : Obligations.OnlyPushAndCallStore := by
  intro s t a hrun hm hstep hne
  obtain ⟨f, -, rfl⟩ | ⟨-, i, hi, heff⟩ := step_cases hrun hstep
  · exact absurd rfl hne
  obtain hmem | ⟨hop, v, hmem⟩ := heff.mem_eq_or_write
  · rw [State.cell, hmem] at hne
    exact absurd rfl hne
  · refine ⟨?opcode, ?address⟩
    case opcode =>
      rw [hi.opcode.2]
      exact hop.imp (congrArg opcodes.value) (congrArg opcodes.value)
    case address =>
      by_contra ha
      rw [State.cell, hmem] at hne
      exact hne (State.cellsKeptBut_write _ v hm a ha)

/-! ### Registers -/

/-- A register write changes no register but its own. -/
theorem State.eq_of_setReg_reg_ne {s : State} {r q : RegIdx} {v : Byte} (h : (s.setReg r v).reg q ≠ s.reg q) :
    q = r := by
  by_contra hq
  exact h (State.setReg_reg_of_ne hq)

/-- Which registers an effect can change: register 7 by the stack instructions, register `a` by those that write it. -/
theorem State.Effect.reg_writers {s t : State} {i : Instr} {q : RegIdx} (h : s.Effect i t) (hne : t.reg q ≠ s.reg q) :
    (q = 7 ∧ (i.opcode = .push ∨ i.opcode = .pop ∨ i.opcode = .call ∨ i.opcode = .ret)) ∨
      ∃ a rest, i.operandBytes = a :: rest ∧ a.toNat = q.val ∧
        (i.opcode = .loadImmediate ∨ i.opcode = .add ∨ i.opcode = .multiply ∨ i.opcode = .pop) := by
  cases h with
  | halt => exact absurd rfl hne
  | printRegister => exact absurd rfl hne
  | loadImmediate ha =>
    cases State.eq_of_setReg_reg_ne hne
    exact .inr ⟨_, _, rfl, ha, .inl rfl⟩
  | add ha =>
    cases State.eq_of_setReg_reg_ne hne
    exact .inr ⟨_, _, rfl, ha, .inr (.inl rfl)⟩
  | multiply ha =>
    cases State.eq_of_setReg_reg_ne hne
    exact .inr ⟨_, _, rfl, ha, .inr (.inr (.inl rfl))⟩
  | push => exact .inl ⟨State.eq_of_setReg_reg_ne hne, .inl rfl⟩
  | call => exact .inl ⟨State.eq_of_setReg_reg_ne hne, .inr (.inr (.inl rfl))⟩
  | ret => exact .inl ⟨State.eq_of_setReg_reg_ne hne, .inr (.inr (.inr rfl))⟩
  | pop ha =>
    by_cases hq : q = 7
    · exact .inl ⟨hq, .inr (.inl rfl)⟩
    · rw [State.advance_reg, State.incSp_reg_of_ne hq] at hne
      cases State.eq_of_setReg_reg_ne hne
      exact .inr ⟨_, _, rfl, ha, .inr (.inr (.inr rfl))⟩

/-- Settles O52: fault entry changes no register, and the effects change those the table has. -/
theorem registerWritersOnly : Obligations.RegisterWritersOnly := by
  intro s t q hrun hstep hne ir
  obtain ⟨f, -, rfl⟩ | ⟨-, i, hi, heff⟩ := step_cases hrun hstep
  · exact absurd rfl hne
  have hir : ∀ {o : Opcode}, i.opcode = o → ir = opcodes.value o := fun ho => ho ▸ hi.opcode.2
  obtain ⟨hq, hop⟩ | ⟨a, rest, hops, ha, hop⟩ := heff.reg_writers hne
  · exact .inl ⟨hq, hop.imp hir (.imp hir (.imp hir hir))⟩
  · rw [encode, encodeWith_eq_cons, hops] at hi
    exact .inr ⟨by rw [hi.opa, ha], hop.imp hir (.imp hir (.imp hir hir))⟩

/-! ### Output -/

/-- The effects leave the output alone, but for PRINT_REGISTER's, which appends the register named. -/
theorem State.Effect.out_eq_or_append {s t : State} {i : Instr} (h : s.Effect i t) :
    t.out = s.out ∨ ∃ a, i = .printRegister a ∧ ∃ r : RegIdx, a.toNat = r.val ∧ t.out = s.out ++ [s.reg r] := by
  cases h with
  | printRegister ha => exact .inr ⟨_, rfl, _, ha, rfl⟩
  | _ => exact .inl rfl

/-- A step leaves the output alone, or PRINT_REGISTER appends the register named. -/
theorem out_of_step {s t : State} (hrun : s.running = true) (h : step s = .next t) :
    t.out = s.out ∨ (s.cell s.pc.toNat = opcodes.printRegister ∧
      ∃ r : RegIdx, (s.cell (s.pc.toNat + 1)).toNat = r.val ∧ t.out = s.out ++ [s.reg r]) := by
  obtain ⟨f, -, rfl⟩ | ⟨-, i, hi, heff⟩ := step_cases hrun h
  · exact .inl rfl
  · obtain hkept | ⟨a, rfl, r, ha, hout⟩ := heff.out_eq_or_append
    · exact .inl hkept
    · exact .inr ⟨hi.ir, r, by rw [hi.opa, ha], hout⟩

/-- Any step, of a stopped state too, leaves the old output at the front of the new. -/
theorem out_append_of_step {s t : State} (h : step s = .next t) : ∃ more, t.out = s.out ++ more := by
  cases hrun : s.running with
  | false =>
    rw [step_stopped hrun] at h
    cases h
    exact ⟨[], (List.append_nil _).symm⟩
  | true =>
    obtain hkept | ⟨-, r, -, hout⟩ := out_of_step hrun h
    · exact ⟨[], by rw [hkept, List.append_nil]⟩
    · exact ⟨_, hout⟩

/-- Settles O53: one step by the effects, a run by induction on its steps. -/
theorem outputOnlyGrows : Obligations.OutputOnlyGrows := by
  refine ⟨fun s t => out_of_step, fun k => ?run⟩
  induction k with
  | zero =>
    intro s t h
    cases h
    exact ⟨[], (List.append_nil _).symm⟩
  | succ k ih =>
    intro s t h
    obtain ⟨u, hu⟩ := stepAlwaysAnswersNext s
    rw [core_run_of_next k hu] at h
    obtain ⟨more, hmore⟩ := out_append_of_step hu
    obtain ⟨later, hlater⟩ := ih u t h
    exact ⟨more ++ later, by rw [hlater, hmore, List.append_assoc]⟩

end Sys2Proof.Machine
end

-- The ALU's results over the integers, and what short sequences of instructions do together (R42, R100, R105, R110,
-- R111, R120, R121; 95_test_vectors.md S2, S3, S4).
section

namespace Sys2Proof.Machine

/-! ### The ALU -/

/-- The three selects that are operations. -/
theorem aluSelect_cases {op : AluSelect} (h : op ≠ 3#2) : op = aluAdd ∨ op = aluSubtract ∨ op = aluMultiply := by
  revert op
  decide

/-- The 8-bit difference, as an integer. -/
theorem toInt_toNat_sub (u v : Byte) : ((u - v).toNat : Int) = ((u.toNat : Int) - v.toNat) % 256 := by
  rw [BitVec.toNat_sub]
  omega

/-- Settles O47: each select writes its 8-bit result to the destination, and every other register is kept. -/
theorem aluComputesModulo256 : Obligations.AluComputesModulo256 := by
  intro s op d q hop
  obtain rfl | rfl | rfl := aluSelect_cases hop
  · refine ⟨_, s.alu_add d q, rfl, fun _ hp _ => State.setReg_reg_of_ne hp, ?_⟩
    rw [State.setReg_reg_self, if_pos (show aluAdd = 0#2 from rfl), BitVec.toNat_add]
    rfl
  · refine ⟨_, s.alu_subtract d q, rfl, fun _ hp _ => State.setReg_reg_of_ne hp, ?_⟩
    rw [State.setReg_reg_self, if_neg (by decide), if_pos (show aluSubtract = 1#2 from rfl), toInt_toNat_sub]
  · refine ⟨_, s.alu_multiply d q, rfl, fun _ hp _ => State.setReg_reg_of_ne hp, ?_⟩
    rw [State.setReg_reg_self, if_neg (by decide), if_neg (by decide), BitVec.toNat_mul]
    rfl

/-- Settles O48: the fourth select is none of the three operations. -/
theorem aluRejectsUnknownSelect : Obligations.AluRejectsUnknownSelect := fun _ _ _ => rfl

/-! ### Sequences -/

/-- Settles O50: the PUSH leaves the byte in that cell, and the fetch starts with the cell at `pc`. -/
theorem fetchSeesThePushedByte : Obligations.FetchSeesThePushedByte := by
  intro s t u a r hm ha hpush hmem hpc
  obtain ⟨t', hpush', -, hcell, -⟩ := pushCompletes s a r hm ha
  cases hpush.symm.trans hpush'
  have hle : u.pc.toNat ≤ 255 := by omega
  rw [State.head?_fetchBytes hle, State.cell, hmem, hpc]
  exact congrArg some hcell

/-- Settles O54: the register holds the immediate, and is then appended to the kept output. -/
theorem loadThenPrintEmitsValue : Obligations.LoadThenPrintEmitsValue := by
  intro s a imm hle
  obtain ⟨r, ha⟩ := exists_regIdx hle
  obtain ⟨t, ht, himm, -, -, -, hout, -⟩ := loadImmediateCompletes s a imm r ha
  obtain ⟨u, hu, hemit, -⟩ := printRegisterCompletes t a r ha
  exact ⟨t, u, ht, hu, by rw [hemit, himm, hout]⟩

/-- Settles O55: POP finds on top the byte PUSH stored; for register 7 that is the fallen stack pointer, whose rise
restores it. -/
theorem pushThenPopRestores : Obligations.PushThenPopRestores := by
  intro s a hm hle
  obtain ⟨r, ha⟩ := exists_regIdx hle
  obtain ⟨t, ht, hsp, htop, -, hkept, -⟩ := pushCompletes s a r hm ha
  obtain ⟨u, hu, hother, hseven, -, hkept', -⟩ := popCompletes t a r ha
  rw [hsp, htop] at hother hseven
  refine ⟨t, u, ht, hu, fun q => ?_⟩
  by_cases hr : r = 7
  · subst hr
    by_cases hq : q = 7
    · rw [hq, hseven rfl, if_pos rfl, BitVec.sub_add_cancel]
    · rw [hkept' q hq hq, hkept q hq hq]
  · obtain ⟨hpopped, hrise⟩ := hother hr
    by_cases hq : q = 7
    · rw [hq, hrise, BitVec.sub_add_cancel]
    · by_cases hqr : q = r
      · rw [hqr, hpopped, if_neg hr]
      · rw [hkept' q hqr hq, hkept q hq hq]

/-- Settles O56: RET finds on top the return address CALL stored, and its rise undoes CALL's fall. -/
theorem retResumesAfterCall : Obligations.RetResumesAfterCall := by
  intro s a r hm ha hret
  obtain ⟨t, ht, hsp, htop, -⟩ := callCompletes s a r hm ha hret
  refine ⟨t, ht, fun u hu7 hucell => ?_⟩
  obtain ⟨v, hv, hpc, hv7, -⟩ := retCompletes u
  refine ⟨v, hv, ?_, ?_⟩
  · rw [hpc, hu7, hucell, hsp, htop]
  · rw [hv7, hu7, hsp, BitVec.sub_add_cancel]

end Sys2Proof.Machine
end

-- Lists of PUSHes and of POPs: how far the stack pointer moves, which cells stay, and that the POPs undo the PUSHes
-- (R110, R111; 95_test_vectors.md S6).
section

namespace Sys2Proof.Machine

/-! ### Running a list of instructions -/

/-- The first instruction's next state is where the rest of the list goes on. -/
theorem execAll_cons_of_next {i : Instr} {rest : List Instr} {s t : State} (h : exec i s = .next t) :
    execAll (i :: rest) s = execAll rest t := by
  rw [execAll, h]

/-- A second list goes on from where the first one ended. -/
theorem execAll_append_of_next {is js : List Instr} {s t : State} (h : execAll is s = .next t) :
    execAll (is ++ js) s = execAll js t := by
  induction is generalizing s with
  | nil =>
    cases h
    rfl
  | cons i rest ih =>
    rw [execAll] at h
    split at h
    · next u hu =>
      rw [List.cons_append, execAll_cons_of_next hu]
      exact ih h
    · cases h
    · cases h

/-! ### PUSHes -/

/-- A byte up to 7 is the number of the register its value gives. -/
theorem toNat_eq_ofNat_val {a : Byte} (h : a.toNat ≤ 7) : a.toNat = (Fin.ofNat 8 a.toNat : RegIdx).val :=
  (Nat.mod_eq_of_lt (Nat.lt_succ_of_le h)).symm

/-- The state after a PUSH whose operand byte names a register. -/
def State.afterPush (s : State) (a : Byte) : State :=
  (s.pushByte (s.decSp.reg (Fin.ofNat 8 a.toNat))).advance opcodes.push

/-- The execute phase of such a PUSH answers that state. -/
theorem exec_push_eq_afterPush {a : Byte} (h : a.toNat ≤ 7) (s : State) : exec (.push a) s = .next (s.afterPush a) :=
  (State.Effect.push (toNat_eq_ofNat_val h)).exec_eq

@[simp] theorem State.afterPush_reg_seven (s : State) (a : Byte) : (s.afterPush a).reg 7 = s.reg 7 - 1#8 :=
  s.decSp_reg_seven

/-- A PUSH keeps every other register. -/
theorem State.afterPush_reg_of_ne {q : RegIdx} (h : q ≠ 7) (s : State) (a : Byte) : (s.afterPush a).reg q = s.reg q :=
  State.decSp_reg_of_ne h

/-- A PUSH keeps memory canonical. -/
theorem State.afterPush_mem_wf {s : State} (a : Byte) (hm : s.mem.wf = true) : (s.afterPush a).mem.wf = true :=
  State.pushByte_mem_wf _ hm

/-- A PUSH of a register other than 7 leaves its value on top. -/
theorem State.afterPush_cell_top {s : State} {a : Byte} {r : RegIdx} (hm : s.mem.wf = true) (ha : a.toNat = r.val)
    (hr : r ≠ 7) : (s.afterPush a).cell (s.reg 7 - 1#8).toNat = s.reg r := by
  have hidx : (Fin.ofNat 8 a.toNat : RegIdx) = r := Fin.ext ((toNat_eq_ofNat_val (by omega)).symm.trans ha)
  rw [← State.decSp_reg_of_ne (s := s) hr, ← hidx]
  exact State.pushByte_cell_top _ hm

/-- A PUSH keeps every cell but the new top. -/
theorem State.cellsKeptBut_afterPush {s : State} (a : Byte) (hm : s.mem.wf = true) :
    CellsKeptBut (s.reg 7 - 1#8).toNat s (s.afterPush a) :=
  State.cellsKeptBut_pushByte _ hm

/-- The state after the PUSHes of a list of operand bytes, each naming a register. -/
def State.pushAll (s : State) : List Byte → State
  | [] => s
  | a :: rest => State.pushAll (s.afterPush a) rest

/-- The PUSHes of register numbers, one after another, answer the state that `pushAll` gives. -/
theorem execAll_pushes {regs : List Byte} {s : State} (h : ∀ a ∈ regs, a.toNat ≤ 7) :
    execAll (regs.map .push) s = .next (s.pushAll regs) := by
  induction regs generalizing s with
  | nil => rfl
  | cons a rest ih =>
    obtain ⟨ha, hrest⟩ := List.forall_mem_cons.mp h
    rw [List.map_cons, execAll_cons_of_next (exec_push_eq_afterPush ha s), ih hrest, State.pushAll]

/-- One more PUSH lowers the stack pointer by one more. -/
theorem sub_one_sub_ofNat (v : Byte) (n : Nat) : v - 1#8 - BitVec.ofNat 8 n = v - BitVec.ofNat 8 (n + 1) := by
  rw [BitVec.ofNat_add, sub_sub, add_comm]

/-- PUSHes lower the stack pointer by their number, modulo 256. -/
theorem State.pushAll_reg_seven (s : State) (regs : List Byte) :
    (s.pushAll regs).reg 7 = s.reg 7 - BitVec.ofNat 8 regs.length := by
  induction regs generalizing s with
  | nil => exact (BitVec.sub_zero _).symm
  | cons a rest ih =>
    rw [State.pushAll, ih, State.afterPush_reg_seven, sub_one_sub_ofNat, List.length_cons]

/-- PUSHes keep every other register. -/
theorem State.pushAll_reg_of_ne {q : RegIdx} (h : q ≠ 7) (s : State) (regs : List Byte) :
    (s.pushAll regs).reg q = s.reg q := by
  induction regs generalizing s with
  | nil => rfl
  | cons a rest ih => rw [State.pushAll, ih, State.afterPush_reg_of_ne h]

/-- Settles O57: the stack pointer falls once a PUSH, and no other register changes. -/
theorem pushesLowerStackPointer : Obligations.PushesLowerStackPointer := by
  intro regs s h
  exact ⟨_, execAll_pushes h, s.pushAll_reg_seven regs, fun q hq _ => State.pushAll_reg_of_ne hq s regs⟩

/-- A cell up to 254 above the stack pointer, counted modulo 256, is not the one below it. -/
theorem toNat_add_ofNat_ne_sub_one (v : Byte) {d : Nat} (hd : d + 1 < 256) :
    (v + BitVec.ofNat 8 d).toNat ≠ (v - 1#8).toNat := by
  rw [BitVec.toNat_add, BitVec.toNat_sub, BitVec.toNat_ofNat, BitVec.toNat_ofNat]
  omega

/-- PUSHes too few to come round to a cell from below keep it: the cell `d` above the stack pointer is written by PUSH
number `256 - d`, no sooner. -/
theorem State.pushAll_cell_above {s : State} {regs : List Byte} {d : Nat} (hm : s.mem.wf = true)
    (hlen : regs.length + d < 256) :
    (s.pushAll regs).cell (s.reg 7 + BitVec.ofNat 8 d).toNat = s.cell (s.reg 7 + BitVec.ofNat 8 d).toNat := by
  induction regs generalizing s d with
  | nil => rfl
  | cons a rest ih =>
    rw [List.length_cons] at hlen
    have haddr : s.reg 7 + BitVec.ofNat 8 d = (s.afterPush a).reg 7 + BitVec.ofNat 8 (d + 1) := by
      rw [State.afterPush_reg_seven, BitVec.ofNat_add, add_comm (BitVec.ofNat 8 d), ← add_assoc, sub_add_cancel]
    have hne := toNat_add_ofNat_ne_sub_one (s.reg 7) (d := d) (by omega)
    calc (s.pushAll (a :: rest)).cell (s.reg 7 + BitVec.ofNat 8 d).toNat
        = (s.afterPush a).cell (s.reg 7 + BitVec.ofNat 8 d).toNat := by
          rw [State.pushAll, haddr, ih (State.afterPush_mem_wf a hm) (by omega)]
      _ = s.cell (s.reg 7 + BitVec.ofNat 8 d).toNat := State.cellsKeptBut_afterPush a hm _ hne

/-- Up to 255 PUSHes keep the top of the stack they start from. -/
theorem State.pushAll_cell_top {s : State} {regs : List Byte} (hm : s.mem.wf = true) (hlen : regs.length < 256) :
    (s.pushAll regs).cell (s.reg 7).toNat = s.cell (s.reg 7).toNat := by
  have h := State.pushAll_cell_above (d := 0) hm hlen
  rwa [BitVec.add_zero] at h

/-! ### POPs -/

/-- A byte up to 6 names no stack pointer. -/
theorem ne_seven_of_le_six {b : Byte} {r : RegIdx} (h : b.toNat ≤ 6) (hr : b.toNat = r.val) : r ≠ 7 := by
  rintro rfl
  exact absurd (hr ▸ h) (by decide)

/-- The POPs of a reversed list undo its PUSHes: the last POP finds the first byte pushed, which no later PUSH
overwrote. -/
theorem pops_undo_pushes {regs : List Byte} {s u : State} (hm : s.mem.wf = true) (h6 : ∀ a ∈ regs, a.toNat ≤ 6)
    (hlen : regs.length ≤ 256) (hsp : u.reg 7 = (s.pushAll regs).reg 7) (hcells : CellsKept (s.pushAll regs) u) :
    ∃ v, execAll (regs.reverse.map .pop) u = .next v ∧ v.reg 7 = s.reg 7 ∧ CellsKept u v ∧
      ∀ (a : Byte) (r : RegIdx), a ∈ regs → a.toNat = r.val → v.reg r = s.reg r := by
  induction regs generalizing s u with
  | nil => exact ⟨u, rfl, hsp, fun _ => rfl, nofun⟩
  | cons a rest ih =>
    have hlt : rest.length < 256 := hlen
    have hm1 := State.afterPush_mem_wf a hm
    obtain ⟨ha6, hrest⟩ := List.forall_mem_cons.mp h6
    obtain ⟨r, ha⟩ := exists_regIdx (b := a) (by omega)
    have hr : r ≠ 7 := ne_seven_of_le_six ha6 ha
    obtain ⟨w, hw, hw7, hwcells, hwregs⟩ := ih hm1 hrest (Nat.le_of_lt hlt) hsp hcells
    obtain ⟨v, hv, hpop, -, -, hvregs, hvcells, -⟩ := popCompletes w a r ha
    obtain ⟨hvalue, hrise⟩ := hpop hr
    have hrestored : v.reg r = s.reg r := by
      rw [hvalue, hw7, hwcells, hcells, State.pushAll, State.pushAll_cell_top hm1 hlt, State.afterPush_reg_seven,
        State.afterPush_cell_top hm ha hr]
    refine ⟨v, ?run, ?sp, fun b => (hvcells b).trans (hwcells b), fun b q hb hq => ?regs⟩
    case run =>
      rw [List.reverse_cons, List.map_append, execAll_append_of_next hw]
      exact execAll_cons_of_next hv
    case sp => rw [hrise, hw7, State.afterPush_reg_seven, BitVec.sub_add_cancel]
    case regs =>
      have hq7 : q ≠ 7 := ne_seven_of_le_six (h6 b hb) hq
      by_cases hqr : q = r
      · rw [hqr, hrestored]
      · have hb' : b ∈ rest := (List.mem_cons.mp hb).resolve_left fun hba =>
          hqr (Fin.ext (by rw [← hq, ← ha, hba]))
        rw [hvregs q hqr hq7, hwregs b q hb' hq, State.afterPush_reg_of_ne hq7]

/-- Settles O58: the PUSHes end in `pushAll`, which the POPs in reverse order undo. -/
theorem popsRestorePushedRegisters : Obligations.PopsRestorePushedRegisters := by
  intro regs s hm h6 hlen
  refine ⟨_, execAll_pushes fun a ha => Nat.le_succ_of_le (h6 a ha), fun u hsp hcells => ?_⟩
  obtain ⟨v, hv, hv7, -, hregs⟩ := pops_undo_pushes hm h6 hlen hsp hcells
  exact ⟨v, hv, hv7, hregs⟩

end Sys2Proof.Machine
end
